-- ==== Sys2Proof/Word.lean ====
section
/-! DEFINITION. Word.lean: the machine word, register indices, and the truncation of a number to a word
(00_scope.md R7, R8). Plain arithmetic only; every operation of the hardware stands under Machine/. -/

namespace Sys2Proof

/-- R8: a Word is "a 32-bit unsigned value"; bit 0 is its least significant bit (R7). The two's-complement
reading `signed(w)` of R8 is `BitVec.toInt`. -/
abbrev Word := BitVec 32

/-- R21, R71: a general register is named by a 5-bit field, so an index above 31 cannot be formed. -/
abbrev RegIdx := BitVec 5

/-- R8: `trunc32(v) = v mod 2^32`, for any integer `v`. -/
def trunc32 (v : Int) : Word := BitVec.ofInt 32 v

end Sys2Proof
end

