-- ==== Sys2Proof/Machine/Tables.lean ====
section
/-! DEFINITION. Machine/Tables.lean: the numbering tables that 00_scope.md R6 makes arguments of the model, ISA_TABLE,
ALU_OP_CODE and SEL_CODE, each with the spec's own values (`standard`). A table carries the proofs that make it one, so that an
ambiguous one cannot be built. -/

namespace Sys2Proof

/-! ## The names that the tables number -/

/-- R100: the nine ALU operations. -/
inductive AluOp where
  | add
  | sub
  | and
  | or
  | xor
  | sll
  | srl
  | sra
  | slt
  deriving DecidableEq, Repr

/-- R80: what an opcode selects, one name for each row of the table. -/
inductive Major where
  | rType
  | j
  | jal
  | beq
  | bne
  | addi
  | slti
  | andi
  | ori
  | xori
  | lw
  | sw
  | halt
  deriving DecidableEq, Repr

/-- R124: the inputs of the ALU source A multiplexer. -/
inductive SourceA where
  | regA
  | pc
  deriving DecidableEq, Repr

/-- R124: the inputs of the ALU source B multiplexer. -/
inductive SourceB where
  | regB
  | imm
  | four
  deriving DecidableEq, Repr

/-- R124: the inputs of the destination register multiplexer. -/
inductive Destination where
  | rt
  | rd
  | link
  deriving DecidableEq, Repr

/-- R124: the inputs of the write-back data multiplexer. -/
inductive WriteData where
  | aluOut
  | mdr
  deriving DecidableEq, Repr

/-- R124: the inputs of the PC source multiplexer. -/
inductive PcSource where
  | sequential
  | branch
  | jump
  deriving DecidableEq, Repr

/-! Each kind of name as a list, in the order in which the document lists it. -/

/-- R80 -/
def Major.all : List Major := [.rType, .j, .jal, .beq, .bne, .addi, .slti, .andi, .ori, .xori, .lw, .sw, .halt]
/-- R100 -/
def AluOp.all : List AluOp := [.add, .sub, .and, .or, .xor, .sll, .srl, .sra, .slt]
/-- R124: "the A/PC ... multiplexers" -/
def SourceA.all : List SourceA := [.regA, .pc]
/-- R124: "B/immediate/4" -/
def SourceB.all : List SourceB := [.regB, .imm, .four]
/-- R124: "rt/rd/31" -/
def Destination.all : List Destination := [.rt, .rd, .link]
/-- R124: "ALU-output vs memory-data" -/
def WriteData.all : List WriteData := [.aluOut, .mdr]
/-- R36: sequential, branch target, jump target -/
def PcSource.all : List PcSource := [.sequential, .branch, .jump]

/-! ## The tables -/

/-- R80 to R84: ISA_TABLE, the opcode of each row of R80 and the funct of each row of R81. "A model can be re-run with other
numbers" (30_encoding.md); the 21 instructions themselves are R2's (notes/assumptions/2.md). -/
structure IsaTable where
  rType : BitVec 6
  j : BitVec 6
  jal : BitVec 6
  beq : BitVec 6
  bne : BitVec 6
  addi : BitVec 6
  slti : BitVec 6
  andi : BitVec 6
  ori : BitVec 6
  xori : BitVec 6
  lw : BitVec 6
  sw : BitVec 6
  halt : BitVec 6
  functSll : BitVec 6
  functSrl : BitVec 6
  functSra : BitVec 6
  functAdd : BitVec 6
  functSub : BitVec 6
  functAnd : BitVec 6
  functOr : BitVec 6
  functXor : BitVec 6
  functSlt : BitVec 6
  /-- no opcode stands in two rows -/
  opcodesDistinct : [rType, j, jal, beq, bne, addi, slti, andi, ori, xori, lw, sw, halt].Nodup := by decide
  /-- no funct stands in two rows -/
  functsDistinct :
    [functAdd, functSub, functAnd, functOr, functXor, functSll, functSrl, functSra, functSlt].Nodup := by decide
  /-- R6, R81: the one number the document gives -/
  functAddGiven : functAdd = 0x20#6 := by decide
  deriving DecidableEq, Repr

/-- R80, R81, D6, D7, D8: the spec's own values. -/
def IsaTable.standard : IsaTable where
  rType := 0x00
  j := 0x02
  jal := 0x03
  beq := 0x04
  bne := 0x05
  addi := 0x08
  slti := 0x0A
  andi := 0x0C
  ori := 0x0D
  xori := 0x0E
  lw := 0x23
  sw := 0x2B
  halt := 0x3F
  functSll := 0x00
  functSrl := 0x02
  functSra := 0x03
  functAdd := 0x20
  functSub := 0x22
  functAnd := 0x24
  functOr := 0x25
  functXor := 0x26
  functSlt := 0x2A

/-- A numbering of a list of names by 0, 1, 2, ...: the same names in the order of their codes (R100: "the operation codes are
the positions in the document's list"; R124: "the numbering takes the inputs in the order the document lists them"). -/
structure Numbering {α : Type} (all : List α) where
  names : List α
  perm : names.Perm all
  deriving DecidableEq, Repr

/-- The numbering in the document's own order. -/
def Numbering.inOrder {α : Type} (all : List α) : Numbering all := { names := all, perm := .refl all }

/-- The code of a name: its place in the list. -/
def Numbering.code {α : Type} [DecidableEq α] {all : List α} (t : Numbering all) (a : α) : Nat := t.names.idxOf a

/-- The name of a code; none from the number of names up. -/
def Numbering.name {α : Type} {all : List α} (t : Numbering all) (code : Nat) : Option α := t.names[code]?

/-- R100: ALU_OP_CODE, "0..8". -/
structure AluOpCode where
  ops : Numbering AluOp.all
  /-- R6, R100: the document gives SUB = 1 -/
  subGiven : ops.names[1]? = some .sub
  deriving DecidableEq, Repr

/-- R100, D1: the document's list order. -/
def AluOpCode.standard : AluOpCode := { ops := .inOrder AluOp.all, subGiven := rfl }

/-- R124: SEL_CODE, one numbering for each multiplexer. -/
structure SelCode where
  aluSrcA : Numbering SourceA.all
  aluSrcB : Numbering SourceB.all
  regDst : Numbering Destination.all
  memToReg : Numbering WriteData.all
  pcSource : Numbering PcSource.all
  /-- R124: the document gives `pc_source = 1` for a taken branch -/
  branchGiven : pcSource.names[1]? = some .branch
  deriving DecidableEq, Repr

/-- R124, D5: the inputs in the order the document lists them. -/
def SelCode.standard : SelCode where
  aluSrcA := .inOrder SourceA.all
  aluSrcB := .inOrder SourceB.all
  regDst := .inOrder Destination.all
  memToReg := .inOrder WriteData.all
  pcSource := .inOrder PcSource.all
  branchGiven := rfl

end Sys2Proof
end

