-- ==== Sys2Proof/Config.lean ====
section
/-! DEFINITION. Config.lean: the parameters of one machine (00_scope.md R6): VARIANT, MEM_WORDS and the three numbering tables
ISA_TABLE, ALU_OP_CODE and SEL_CODE of Machine/Tables.lean. PC0 and MEM0 are set by the host (`setPc`, `loadWords` of
Machine/HostOps.lean); XLEN, NREGS and ILEN are fixed by the document. -/

namespace Sys2Proof

/-- R1, R6: the control unit that drives the datapath. `single` runs one instruction a step, `multi` one clock
phase a step. -/
inductive Variant where
  | single
  | multi
  deriving DecidableEq, Repr

/-- R6: the parameters a machine is built with; nothing changes them afterwards (R50: the size "never changes"). The tables have
the spec's own values unless others are given. -/
structure Config where
  /-- VARIANT. -/
  variant : Variant
  /-- MEM_WORDS, the number of Words in Memory. -/
  memWords : Nat
  /-- ISA_TABLE. -/
  isa : IsaTable := IsaTable.standard
  /-- ALU_OP_CODE. -/
  aluOpCode : AluOpCode := AluOpCode.standard
  /-- SEL_CODE. -/
  selCode : SelCode := SelCode.standard
  deriving DecidableEq, Repr

/-- R6: `1 <= MEM_WORDS <= 2^30`; the tables are legal by what they carry. -/
def Config.valid (c : Config) : Bool := decide (1 ≤ c.memWords) && decide (c.memWords ≤ 2 ^ 30)

/-- DESIGN CHOICE (notes/assumptions/1.md): the configuration of `State.reset`. MEM_WORDS is the 1024 of every
example of the spec (R6), the tables are the spec's own (notes/assumptions/2.md). The statements range over every
configuration. -/
def Config.standard : Config := { variant := .single, memWords := 1024 }

end Sys2Proof
end

