-- ==== Sys2Proof/Syntax.lean ====
section
/-! DEFINITION. Syntax.lean: the 21 instructions of 00_scope.md R2, one constructor per row of
spec/opcode_table.json, operands in the order of the assembler form (30_encoding.md R92). A constructor carries
every bit of its word that the opcode and funct do not fix: the ignored fields too (R75, R85), because bits 25:21
and 20:16 of EVERY word reach the holding registers A and B (R85, R174). -/

namespace Sys2Proof

/-- R2: the instruction set. `shamt` and `ignored` are the fields that select nothing (R75, R84, R85). -/
inductive Instr where
  /-- R201 -/
  | add (rd rs rt shamt : RegIdx)
  /-- R202 -/
  | sub (rd rs rt shamt : RegIdx)
  /-- R203 -/
  | and (rd rs rt shamt : RegIdx)
  /-- R204 -/
  | or (rd rs rt shamt : RegIdx)
  /-- R208 -/
  | xor (rd rs rt shamt : RegIdx)
  /-- R205 -/
  | sll (rd rs rt shamt : RegIdx)
  /-- R206 -/
  | srl (rd rs rt shamt : RegIdx)
  /-- R207 -/
  | sra (rd rs rt shamt : RegIdx)
  /-- R209 -/
  | slt (rd rs rt shamt : RegIdx)
  /-- R221 -/
  | addi (rt rs : RegIdx) (imm : BitVec 16)
  /-- R222 -/
  | slti (rt rs : RegIdx) (imm : BitVec 16)
  /-- R223 -/
  | andi (rt rs : RegIdx) (imm : BitVec 16)
  /-- R224 -/
  | ori (rt rs : RegIdx) (imm : BitVec 16)
  /-- R225 -/
  | xori (rt rs : RegIdx) (imm : BitVec 16)
  /-- R231: `LW $rt, imm($rs)` -/
  | lw (rt rs : RegIdx) (imm : BitVec 16)
  /-- R232: `SW $rt, imm($rs)` -/
  | sw (rt rs : RegIdx) (imm : BitVec 16)
  /-- R241: `BEQ $rs, $rt, offset` -/
  | beq (rs rt : RegIdx) (imm : BitVec 16)
  /-- R242: `BNE $rs, $rt, offset` -/
  | bne (rs rt : RegIdx) (imm : BitVec 16)
  /-- R245: the 26-bit `address` field -/
  | j (address : BitVec 26)
  /-- R246 -/
  | jal (address : BitVec 26)
  /-- R248: 26 ignored bits -/
  | halt (ignored : BitVec 26)
  deriving DecidableEq, Repr

end Sys2Proof
end

