-- ==== Sys2Proof/Decode.lean ====
section
/-! DEFINITION. Decode.lean: the field extractor (30_encoding.md R71, R72), the lookups in ISA_TABLE (R6, R80, R81), the decoder
from the opcode map (R80, R81, R82, R84, R91), total on all 2^32 words and rejecting by name (R86), and the encoder from the same
table. -/

namespace Sys2Proof

/-! ## The fields of a word (R71, R72) -/

/-- R71: bits 31:26. -/
def opcodeOf (w : Word) : BitVec 6 := w.extractLsb' 26 6
/-- R71: bits 25:21. -/
def rsOf (w : Word) : RegIdx := w.extractLsb' 21 5
/-- R71: bits 20:16. -/
def rtOf (w : Word) : RegIdx := w.extractLsb' 16 5
/-- R71: bits 15:11. -/
def rdOf (w : Word) : RegIdx := w.extractLsb' 11 5
/-- R71: bits 10:6. -/
def shamtOf (w : Word) : BitVec 5 := w.extractLsb' 6 5
/-- R71: bits 5:0. -/
def functOf (w : Word) : BitVec 6 := w.extractLsb' 0 6
/-- R71: bits 15:0, before extension. -/
def imm16Of (w : Word) : BitVec 16 := w.extractLsb' 0 16
/-- R71: bits 25:0. -/
def addressOf (w : Word) : BitVec 26 := w.extractLsb' 0 26

/-- R9: `sext_16`, the one extension the hardware has (R73: for the logical immediates too). -/
def sext16 (v : BitVec 16) : Word := v.signExtend 32

/-- R90: the outputs of the decoder block. -/
structure Fields where
  opcode : BitVec 6
  rs : RegIdx
  rt : RegIdx
  rd : RegIdx
  shamt : BitVec 5
  funct : BitVec 6
  imm : Word
  address : BitVec 26
  deriving DecidableEq, Repr

/-- R72: `decode_instruction`, a pure function of IR that extracts all eight fields and cannot fail. -/
def fields (w : Word) : Fields where
  opcode := opcodeOf w
  rs := rsOf w
  rt := rtOf w
  rd := rdOf w
  shamt := shamtOf w
  funct := functOf w
  imm := sext16 (imm16Of w)
  address := addressOf w

/-! ## The decoder (R80 to R91) -/

/-- R86: why a word is no instruction. Both raise the one DecodeError. -/
inductive DecodeReject where
  /-- an opcode outside R80 -/
  | unknownOpcode (opcode : BitVec 6)
  /-- opcode 0 with a funct outside R81 (decision D9) -/
  | unknownFunct (funct : BitVec 6)
  deriving DecidableEq, Repr

/-- R80: the opcode of a row. -/
def IsaTable.opcode (t : IsaTable) : Major → BitVec 6
  | .rType => t.rType
  | .j => t.j
  | .jal => t.jal
  | .beq => t.beq
  | .bne => t.bne
  | .addi => t.addi
  | .slti => t.slti
  | .andi => t.andi
  | .ori => t.ori
  | .xori => t.xori
  | .lw => t.lw
  | .sw => t.sw
  | .halt => t.halt

/-- R81: the funct of a row. -/
def IsaTable.funct (t : IsaTable) : AluOp → BitVec 6
  | .add => t.functAdd
  | .sub => t.functSub
  | .and => t.functAnd
  | .or => t.functOr
  | .xor => t.functXor
  | .sll => t.functSll
  | .srl => t.functSrl
  | .sra => t.functSra
  | .slt => t.functSlt

/-- R80: the row of an opcode; none for "any other of the 64". -/
def IsaTable.majorOf (t : IsaTable) (opcode : BitVec 6) : Option Major := Major.all.find? fun m => t.opcode m == opcode

/-- R81: the row of a funct; none for "any other of the 64". -/
def IsaTable.aluOpOf (t : IsaTable) (funct : BitVec 6) : Option AluOp := AluOp.all.find? fun op => t.funct op == funct

/-- R81: the R_TYPE instruction of an ALU operation, with the register fields of the word. -/
def rTypeInstr (op : AluOp) (w : Word) : Instr :=
  match op with
  | .add => .add (rdOf w) (rsOf w) (rtOf w) (shamtOf w)
  | .sub => .sub (rdOf w) (rsOf w) (rtOf w) (shamtOf w)
  | .and => .and (rdOf w) (rsOf w) (rtOf w) (shamtOf w)
  | .or => .or (rdOf w) (rsOf w) (rtOf w) (shamtOf w)
  | .xor => .xor (rdOf w) (rsOf w) (rtOf w) (shamtOf w)
  | .sll => .sll (rdOf w) (rsOf w) (rtOf w) (shamtOf w)
  | .srl => .srl (rdOf w) (rsOf w) (rtOf w) (shamtOf w)
  | .sra => .sra (rdOf w) (rsOf w) (rtOf w) (shamtOf w)
  | .slt => .slt (rdOf w) (rsOf w) (rtOf w) (shamtOf w)

/-- R81: the R_TYPE rows, selected by `funct`. -/
def decodeRType (t : IsaTable) (w : Word) : Except DecodeReject Instr :=
  match t.aluOpOf (functOf w) with
  | some op => .ok (rTypeInstr op w)
  | none => .error (.unknownFunct (functOf w))

/-- R80, R91: the opcode map. -/
def decode (t : IsaTable) (w : Word) : Except DecodeReject Instr :=
  match t.majorOf (opcodeOf w) with
  | some .rType => decodeRType t w
  | some .j => .ok (.j (addressOf w))
  | some .jal => .ok (.jal (addressOf w))
  | some .beq => .ok (.beq (rsOf w) (rtOf w) (imm16Of w))
  | some .bne => .ok (.bne (rsOf w) (rtOf w) (imm16Of w))
  | some .addi => .ok (.addi (rtOf w) (rsOf w) (imm16Of w))
  | some .slti => .ok (.slti (rtOf w) (rsOf w) (imm16Of w))
  | some .andi => .ok (.andi (rtOf w) (rsOf w) (imm16Of w))
  | some .ori => .ok (.ori (rtOf w) (rsOf w) (imm16Of w))
  | some .xori => .ok (.xori (rtOf w) (rsOf w) (imm16Of w))
  | some .lw => .ok (.lw (rtOf w) (rsOf w) (imm16Of w))
  | some .sw => .ok (.sw (rtOf w) (rsOf w) (imm16Of w))
  | some .halt => .ok (.halt (addressOf w))
  | none => .error (.unknownOpcode (opcodeOf w))

/-- The instruction of an opcode-table word, under the table's own numbers. Memory holds Words, not bytes (R56), so the word of
the table is the word the decoder reads; bits from `nbits` up are 0. -/
def decodeTableWord (nbits w : Nat) : Option Instr :=
  (decode IsaTable.standard (BitVec.ofNat 32 (w % 2 ^ nbits))).toOption

/-! ## The encoder -/

/-- R71: `R format | opcode 31:26 | rs 25:21 | rt 20:16 | rd 15:11 | shamt 10:6 | funct 5:0 |`. -/
def encodeR (opcode funct : BitVec 6) (rs rt rd shamt : RegIdx) : Word := opcode ++ rs ++ rt ++ rd ++ shamt ++ funct

/-- R71: `I format | opcode 31:26 | rs 25:21 | rt 20:16 | immediate 15:0 |`. -/
def encodeI (opcode : BitVec 6) (rs rt : RegIdx) (imm : BitVec 16) : Word := opcode ++ rs ++ rt ++ imm

/-- R71: `J format | opcode 31:26 | address 25:0 |`. -/
def encodeJ (opcode : BitVec 6) (address : BitVec 26) : Word := opcode ++ address

/-- The word of an instruction, from the rows of R80, R81, R82 and R84. -/
def encode (t : IsaTable) : Instr → Word
  | .add rd rs rt shamt => encodeR t.rType t.functAdd rs rt rd shamt
  | .sub rd rs rt shamt => encodeR t.rType t.functSub rs rt rd shamt
  | .and rd rs rt shamt => encodeR t.rType t.functAnd rs rt rd shamt
  | .or rd rs rt shamt => encodeR t.rType t.functOr rs rt rd shamt
  | .xor rd rs rt shamt => encodeR t.rType t.functXor rs rt rd shamt
  | .sll rd rs rt shamt => encodeR t.rType t.functSll rs rt rd shamt
  | .srl rd rs rt shamt => encodeR t.rType t.functSrl rs rt rd shamt
  | .sra rd rs rt shamt => encodeR t.rType t.functSra rs rt rd shamt
  | .slt rd rs rt shamt => encodeR t.rType t.functSlt rs rt rd shamt
  | .addi rt rs imm => encodeI t.addi rs rt imm
  | .slti rt rs imm => encodeI t.slti rs rt imm
  | .andi rt rs imm => encodeI t.andi rs rt imm
  | .ori rt rs imm => encodeI t.ori rs rt imm
  | .xori rt rs imm => encodeI t.xori rs rt imm
  | .lw rt rs imm => encodeI t.lw rs rt imm
  | .sw rt rs imm => encodeI t.sw rs rt imm
  | .beq rs rt imm => encodeI t.beq rs rt imm
  | .bne rs rt imm => encodeI t.bne rs rt imm
  | .j address => encodeJ t.j address
  | .jal address => encodeJ t.jal address
  | .halt ignored => encodeJ t.halt ignored

end Sys2Proof
end

