-- ==== Sys2Proof/Machine/State.lean ====
section
/-! DEFINITION. Machine/State.lean: everything the spec gives one machine (10_state.md R20), what a
failing step reports (60_exceptions.md R260 to R262) and the power-on state (R44, R293). Plain data only. -/

namespace Sys2Proof.Machine

/-- R21, R22: the 32 cells of the register file. Cell 0 is never read nor written (see `RegFile.read`). -/
abbrev RegFile := Vector Word 32

/-- R40, R50: memory, from cell index (`address >> 2`) to Word. Canonical form (`Memory.wf`): indices strictly rising,
no Word 0; an unlisted cell holds 0, its power-on value (R293). Words and not bytes, by R56
(notes/assumptions/3.md). -/
abbrev Memory := List (Nat × Word)

/-- R31: the ALU's condition flags. -/
structure Flags where
  /-- zero -/
  z : Bool
  /-- negative -/
  n : Bool
  /-- overflow -/
  v : Bool
  deriving DecidableEq, Repr

/-- R38: the five states of the FSM. -/
inductive Phase where
  | fetch
  | decode
  | execute
  | memory
  | writeback
  deriving DecidableEq, Repr

/-- R20: the complete state of one machine, with the parameters of R6 beside it. -/
structure State where
  /-- R6: VARIANT, MEM_WORDS and the numbering tables; no step changes them. -/
  cfg : Config
  /-- R21 -/
  x : RegFile
  /-- R27 -/
  pc : Word
  /-- R33 -/
  ir : Word
  /-- R34 -/
  a : Word
  /-- R34 -/
  b : Word
  /-- R35 -/
  aluOut : Word
  /-- R35 -/
  mdr : Word
  /-- R31 -/
  flags : Flags
  /-- R40 -/
  mem : Memory
  /-- R38: the multi-cycle FSM's `state`; the single-cycle variant has none and leaves it alone. -/
  fsm : Phase
  /-- R39: completed clock phases, multi-cycle variant only. -/
  cycles : Nat
  deriving DecidableEq, Repr

/-- R262: what an OutOfRange error names. -/
inductive RangeInfo where
  /-- a byte address outside Memory (fetch, LW, SW, `load_words`, `dump`) -/
  | address (addr : Word)
  /-- a register index above 31, from the host's accessor only -/
  | register (index : Nat)
  /-- a multiplexer select at or above its capacity -/
  | select (value : Nat)
  /-- more inputs than a multiplexer's capacity (R122) -/
  | inputCount (count : Nat)
  deriving DecidableEq, Repr

/-- R260: the three errors. Each carries the information of R262 and the state the failing step leaves behind
(R261: "every write the step has already committed stays"; R266), so that a host may step on from it (R268). All
three are what the spec says the hardware does: safe. -/
inductive Fault where
  /-- Raised by the ALU on an `alu_op` outside 0..8 (R112, R263). No instruction raises it. Safe. -/
  | invalidOperation (aluOp : BitVec 4) (left : State)
  /-- Raised by the memory on an index at or above MEM_WORDS (R54) and by a multiplexer on a bad select (R122); the
  latter by no instruction (R264). Safe. -/
  | outOfRange (info : RangeInfo) (left : State)
  /-- Raised by classification on a word of no instruction (R86, R265). Safe. -/
  | decodeError (word : Word) (left : State)
  deriving DecidableEq, Repr

/-- Why the model has no transition. -/
inductive Refusal where
  /-- Raised by a refused arm of `exec` only; no arm is refused. Safe. -/
  | notModelled (mnemonic : String)
  /-- R161, D32: the multi-cycle FSM is in a phase its instruction's class can never be in; "a model refuses these
  pairs". Raised by every meaning in the multi-cycle variant, for such a pair only. Safe. -/
  | unreachablePhase (phase : Phase)
  deriving DecidableEq, Repr

/-- R44, R293: the state at power-on of a machine built with the parameters `c`. -/
def State.powerOn (c : Config) : State where
  cfg := c
  x := Vector.replicate 32 0
  pc := 0
  ir := 0
  a := 0
  b := 0
  aluOut := 0
  mdr := 0
  flags := { z := false, n := false, v := false }
  mem := []
  fsm := .fetch
  cycles := 0

/-- The machine right after reset with nothing loaded: `powerOn` with the configuration of
notes/assumptions/1.md. -/
def State.reset : State := State.powerOn Config.standard

end Sys2Proof.Machine
end

