-- ==== Sys2Proof/Machine/Ops.lean ====
section
/-! DEFINITION. Machine/Ops.lean: the named operations over registers and memory (10_state.md R22, R23, R26,
R30; 20_memory.md R52 to R55) and the one operation that raises an error (60_exceptions.md R261). The hardware has no
trap entry and no return from one (R271, R272): an error ends the step and the host decides. -/

namespace Sys2Proof.Machine

/-! ## Outcomes -/

/-- The outcome of a step, or of a part of one. -/
abbrev Res := Host.Outcome State Fault Refusal

/-- R261: "abandon the rest of the current step at once": what follows runs only after a success. -/
def andThen (r : Res) (k : State → Res) : Res :=
  match r with
  | .next s => k s
  | .fault f => .fault f
  | .refused q => .refused q

/-- R261: `raise E(info)` in the state `s` that the step has reached: the writes already committed stay, the attempted
one does not happen, nothing is saved, no handler is entered (R271). -/
def raise (e : State → Fault) (s : State) : Res := .fault (e s)

/-- R266: the state a failing step leaves behind. -/
def Fault.left : Fault → State
  | .invalidOperation _ s => s
  | .outOfRange _ s => s
  | .decodeError _ s => s

/-! ## Registers -/

/-- R26: `Register.write(enable, v)`: a write is a no-op unless `enable` is set at the moment of the call. -/
def gated (enable : Bool) (new old : Word) : Word := if enable then new else old

/-- R30: the ProgramCounter's increment; no phase uses it. -/
def pcIncrement (enable : Bool) (pc : Word) : Word := gated enable (pc + 4) pc

/-- R22: index 0 is hard-wired to zero. -/
def RegFile.read (x : RegFile) (i : RegIdx) : Word := if i = 0#5 then 0#32 else x[i.toNat]'(i.isLt)

/-- R10: `x[i]`, what a read port shows. -/
abbrev State.reg (s : State) (i : RegIdx) : Word := RegFile.read s.x i

/-- R23: the one write port; a write to index 0 is always discarded. -/
def RegFile.write (x : RegFile) (enable : Bool) (i : RegIdx) (v : Word) : RegFile :=
  if i = 0#5 then x else if enable then x.set i.toNat v i.isLt else x

/-! ## Memory -/

/-- R50, R55: `address >> 2`; the two low bits are dropped. -/
def cellIndex (addr : Word) : Nat := (addr >>> 2).toNat

/-- The Word of a cell; an unlisted cell holds 0 (R293). -/
def Memory.read : Memory → Nat → Word
  | [], _ => 0#32
  | (k, v) :: rest, i => if i = k then v else Memory.read rest i

/-- Stores a Word in a cell and keeps the canonical form: a zero is not listed. -/
def Memory.write : Memory → Nat → Word → Memory
  | [], i, v => if v = 0#32 then [] else [(i, v)]
  | (k, u) :: rest, i, v =>
    if i < k then (if v = 0#32 then (k, u) :: rest else (i, v) :: (k, u) :: rest)
    else if i = k then (if v = 0#32 then rest else (i, v) :: rest)
    else (k, u) :: Memory.write rest i v

/-- The indices rise strictly from `lo` on and no listed Word is 0. -/
def Memory.wfFrom : Nat → Memory → Bool
  | _, [] => true
  | lo, (k, v) :: rest => decide (lo ≤ k) && v != 0#32 && Memory.wfFrom (k + 1) rest

/-- The canonical form of a memory. -/
def Memory.wf (m : Memory) : Bool := Memory.wfFrom 0 m

/-- Every listed cell is below `n`. -/
def Memory.within (n : Nat) (m : Memory) : Bool := m.all fun c => decide (c.1 < n)

/-- R52: `MemRead(addr, 4)`; none is OutOfRange. -/
def memRead (s : State) (addr : Word) : Option Word :=
  if cellIndex addr < s.cfg.memWords then some (Memory.read s.mem (cellIndex addr)) else none

/-- R53: `MemWrite(addr, 4, v)`; none is OutOfRange, and then nothing is stored. -/
def memWrite (s : State) (addr : Word) (v : Word) : Option State :=
  if cellIndex addr < s.cfg.memWords then some { s with mem := Memory.write s.mem (cellIndex addr) v } else none

/-- The instruction word the next step works on: the Word at PC where the step begins with a fetch (R180; R181 state
FETCH), none where that fetch is OutOfRange; otherwise the word latched in IR (R181). -/
def wordInForce (s : State) : Option Word :=
  match s.cfg.variant, s.fsm with
  | .single, _ => memRead s s.pc
  | .multi, .fetch => memRead s s.pc
  | .multi, _ => some s.ir

end Sys2Proof.Machine
end

