-- ==== Sys2Proof/Machine/Flags.lean ====
section
/-! DEFINITION. Machine/Flags.lean: the ALU (40_alu.md R100 to R116): nine operations and three flags. -/

namespace Sys2Proof.Machine

/-- R36, R100: the 4-bit `alu_op` code of an operation. -/
def aluCode (t : AluOpCode) (op : AluOp) : BitVec 4 := BitVec.ofNat 4 (t.ops.code op)

/-- R100, R112: the operation of a code; codes 9 to 15 are no operation. -/
def aluOpOfCode (t : AluOpCode) (c : BitVec 4) : Option AluOp := t.ops.name c.toNat

/-- R107, D3: the shift amount is `b[4:0]`. -/
def shiftAmount (b : Word) : Nat := (b.extractLsb' 0 5).toNat

/-- R101: the result. The value shifted is `a`, the amount comes from `b` (D2). -/
def aluResult (op : AluOp) (a b : Word) : Word :=
  match op with
  | .add => a + b
  | .sub => a - b
  | .and => a &&& b
  | .or => a ||| b
  | .xor => a ^^^ b
  | .sll => a <<< shiftAmount b
  | .srl => a >>> shiftAmount b
  | .sra => a.sshiftRight (shiftAmount b)
  | .slt => if a.toInt < b.toInt then 1#32 else 0#32

/-- R101, R111: overflow, from the sign bits of operands and result; ADD and SUB only. -/
def aluOverflow (op : AluOp) (a b r : Word) : Bool :=
  match op with
  | .add => a.msb == b.msb && r.msb != a.msb
  | .sub => a.msb != b.msb && r.msb != a.msb
  | .and | .or | .xor | .sll | .srl | .sra | .slt => false

/-- R111: the flags after an operation. -/
def aluFlags (op : AluOp) (a b : Word) : Flags where
  z := aluResult op a b == 0#32
  n := (aluResult op a b).msb
  v := aluOverflow op a b (aluResult op a b)

/-- R101: `alu(op, a, b)` on a 4-bit code; none is InvalidOperation (R112). -/
def alu (t : AluOpCode) (op : BitVec 4) (a b : Word) : Option (Word × Flags) :=
  (aluOpOfCode t op).map fun o => (aluResult o a b, aluFlags o a b)

/-- R113: `ALU(op, a, b)`: the result, and the state with Z, N, V written; none leaves the flags alone. -/
def runAlu (op : BitVec 4) (a b : Word) (s : State) : Option (Word × State) :=
  (alu s.cfg.aluOpCode op a b).map fun rf => (rf.1, { s with flags := rf.2 })

end Sys2Proof.Machine
end

