-- ==== Sys2Proof/Machine/Control.lean ====
section
/-! DEFINITION. Machine/Control.lean: instruction classes (R131), the ControlSignals vector (R36, R37), the single-cycle
control unit (41_control_single_cycle.md R130 to R143) and the multi-cycle one with its FSM
(42_control_multi_cycle.md R150 to R163). -/

namespace Sys2Proof.Machine

/-- R131: the sense of a BRANCH. -/
inductive Sense where
  | equal
  | notEqual
  deriving DecidableEq, Repr

/-- R131: the seven classes with their sub-selections. -/
inductive InstrClass where
  | rType (op : AluOp)
  | iType (op : AluOp)
  | load
  | store
  | branch (sense : Sense)
  | jump (link : Bool)
  | halt
  deriving DecidableEq, Repr

/-- R80 to R84: the class of each instruction. -/
def classOf : Instr → InstrClass
  | .add _ _ _ _ => .rType .add
  | .sub _ _ _ _ => .rType .sub
  | .and _ _ _ _ => .rType .and
  | .or _ _ _ _ => .rType .or
  | .xor _ _ _ _ => .rType .xor
  | .sll _ _ _ _ => .rType .sll
  | .srl _ _ _ _ => .rType .srl
  | .sra _ _ _ _ => .rType .sra
  | .slt _ _ _ _ => .rType .slt
  | .addi _ _ _ => .iType .add
  | .slti _ _ _ => .iType .slt
  | .andi _ _ _ => .iType .and
  | .ori _ _ _ => .iType .or
  | .xori _ _ _ => .iType .xor
  | .lw _ _ _ => .load
  | .sw _ _ _ => .store
  | .beq _ _ _ => .branch .equal
  | .bne _ _ _ => .branch .notEqual
  | .j _ => .jump false
  | .jal _ => .jump true
  | .halt _ => .halt

/-- R91: `classify(IR)`; an error is DecodeError. -/
def classify (t : IsaTable) (w : Word) : Except DecodeReject InstrClass := (decode t w).map classOf

/-- R36: the eleven fields of the ControlSignals vector, at their widths as wires (D27). -/
structure Signals where
  pcWrite : Bool
  pcSource : BitVec 2
  memRead : Bool
  memWrite : Bool
  regWrite : Bool
  regDst : BitVec 2
  aluSrcA : BitVec 1
  aluSrcB : BitVec 2
  aluOp : BitVec 4
  memToReg : BitVec 1
  irWrite : Bool
  deriving DecidableEq, Repr

/-! The selector codes of R124, as the control units drive them. -/

/-- `alu_src_a` -/
def srcACode (t : SelCode) (x : SourceA) : BitVec 1 := BitVec.ofNat 1 (t.aluSrcA.code x)
/-- `alu_src_b` -/
def srcBCode (t : SelCode) (x : SourceB) : BitVec 2 := BitVec.ofNat 2 (t.aluSrcB.code x)
/-- `reg_dst` -/
def dstCode (t : SelCode) (x : Destination) : BitVec 2 := BitVec.ofNat 2 (t.regDst.code x)
/-- `mem_to_reg` -/
def dataCode (t : SelCode) (x : WriteData) : BitVec 1 := BitVec.ofNat 1 (t.memToReg.code x)
/-- `pc_source` -/
def pcCode (t : SelCode) (x : PcSource) : BitVec 2 := BitVec.ofNat 2 (t.pcSource.code x)

/-- R37: the default vector SIG0: every boolean false, `alu_op` ADD and every selector on the input the document lists first. With
the spec's own tables these are the zeros of R37. DEDUCED (notes/assumptions/16.md): with other tables the default is the
same name, because D1 and D5 say that no behaviour depends on the numbering. -/
def sig0 (cfg : Config) : Signals where
  pcWrite := false
  pcSource := pcCode cfg.selCode .sequential
  memRead := false
  memWrite := false
  regWrite := false
  regDst := dstCode cfg.selCode .rt
  aluSrcA := srcACode cfg.selCode .regA
  aluSrcB := srcBCode cfg.selCode .regB
  aluOp := aluCode cfg.aluOpCode .add
  memToReg := dataCode cfg.selCode .aluOut
  irWrite := false

/-- R139: branch resolution from the zero flag of the same execute phase's SUB. -/
def taken (sense : Sense) (zero : Bool) : Bool :=
  match sense with
  | .equal => zero
  | .notEqual => !zero

/-- R137, R139: where a BRANCH's `pc_source` points. -/
def branchSource (sense : Sense) (zero : Bool) : PcSource := if taken sense zero then .branch else .sequential

/-- R132: the single-cycle vector of each class. -/
def scControl (cfg : Config) (c : InstrClass) (zero : Bool) : Signals :=
  match c with
  | .rType op =>
    { sig0 cfg with
      pcWrite := true, regWrite := true, regDst := dstCode cfg.selCode .rd, aluOp := aluCode cfg.aluOpCode op, irWrite := true }
  | .iType op =>
    { sig0 cfg with
      pcWrite := true, regWrite := true, aluSrcB := srcBCode cfg.selCode .imm, aluOp := aluCode cfg.aluOpCode op,
      irWrite := true }
  | .load =>
    { sig0 cfg with
      pcWrite := true, memRead := true, regWrite := true, aluSrcB := srcBCode cfg.selCode .imm,
      memToReg := dataCode cfg.selCode .mdr, irWrite := true }
  | .store =>
    { sig0 cfg with pcWrite := true, memWrite := true, aluSrcB := srcBCode cfg.selCode .imm, irWrite := true }
  | .branch sense =>
    { sig0 cfg with
      pcWrite := true, pcSource := pcCode cfg.selCode (branchSource sense zero), aluOp := aluCode cfg.aluOpCode .sub,
      irWrite := true }
  | .jump false => { sig0 cfg with pcWrite := true, pcSource := pcCode cfg.selCode .jump, irWrite := true }
  | .jump true =>
    { sig0 cfg with
      pcWrite := true, pcSource := pcCode cfg.selCode .jump, regWrite := true, regDst := dstCode cfg.selCode .link,
      aluSrcA := srcACode cfg.selCode .pc, aluSrcB := srcBCode cfg.selCode .four, irWrite := true }
  | .halt => { sig0 cfg with irWrite := true }

/-- R154: the FETCH vector, the same for every word. -/
def fetchVector (cfg : Config) : Signals :=
  { sig0 cfg with
    pcWrite := true, memRead := true, aluSrcA := srcACode cfg.selCode .pc, aluSrcB := srcBCode cfg.selCode .four,
    irWrite := true }

/-- R156: the EXECUTE vector of each class. -/
def executeVector (cfg : Config) (c : InstrClass) (zero : Bool) : Signals :=
  match c with
  | .rType op => { sig0 cfg with aluOp := aluCode cfg.aluOpCode op }
  | .iType op => { sig0 cfg with aluSrcB := srcBCode cfg.selCode .imm, aluOp := aluCode cfg.aluOpCode op }
  | .load => { sig0 cfg with aluSrcB := srcBCode cfg.selCode .imm }
  | .store => { sig0 cfg with aluSrcB := srcBCode cfg.selCode .imm }
  | .branch sense =>
    { sig0 cfg with
      pcWrite := taken sense zero, pcSource := pcCode cfg.selCode (branchSource sense zero),
      aluOp := aluCode cfg.aluOpCode .sub }
  | .jump false => { sig0 cfg with pcWrite := true, pcSource := pcCode cfg.selCode .jump }
  | .jump true =>
    { sig0 cfg with
      pcWrite := true, pcSource := pcCode cfg.selCode .jump, aluSrcA := srcACode cfg.selCode .pc,
      aluSrcB := srcBCode cfg.selCode .four }
  | .halt => sig0 cfg

/-- R152: `mc_control(state, IR, zero)` as a function of the zero flag; none is a pair the FSM cannot reach and the
spec gives no vector for (R161). (WRITEBACK, JUMP with link) has one (R158). -/
def mcControl (cfg : Config) (p : Phase) (c : InstrClass) : Option (Bool → Signals) :=
  match p with
  | .fetch => some fun _ => fetchVector cfg
  | .decode => some fun _ => sig0 cfg
  | .execute => some (executeVector cfg c)
  | .memory =>
    match c with
    | .load => some fun _ => { sig0 cfg with memRead := true }
    | .store => some fun _ => { sig0 cfg with memWrite := true }
    | .rType _ | .iType _ | .branch _ | .jump _ | .halt => none
  | .writeback =>
    match c with
    | .rType _ => some fun _ => { sig0 cfg with regWrite := true, regDst := dstCode cfg.selCode .rd }
    | .iType _ => some fun _ => { sig0 cfg with regWrite := true }
    | .load => some fun _ => { sig0 cfg with regWrite := true, memToReg := dataCode cfg.selCode .mdr }
    | .jump true => some fun _ => { sig0 cfg with regWrite := true, regDst := dstCode cfg.selCode .link }
    | .store | .branch _ | .jump false | .halt => none

/-- R151: the transition function; none on the pairs of R161, for which "`next_state` and `mc_control` have no value". On
(WRITEBACK, JUMP with link), which R161 excepts, R151's row "WRITEBACK, any" gives FETCH: DEDUCED (notes/assumptions/7.md). -/
def nextState (p : Phase) (c : InstrClass) : Option Phase :=
  match p with
  | .fetch => some .decode
  | .decode => some .execute
  | .execute =>
    match c with
    | .load | .store => some .memory
    | .rType _ | .iType _ => some .writeback
    | .branch _ | .jump _ | .halt => some .fetch
  | .memory =>
    match c with
    | .load => some .writeback
    | .store => some .fetch
    | .rType _ | .iType _ | .branch _ | .jump _ | .halt => none
  | .writeback =>
    match c with
    | .rType _ | .iType _ | .load | .jump true => some .fetch
    | .store | .branch _ | .jump false | .halt => none

/-- R160: the clock phases of one instruction. -/
def phaseCount (c : InstrClass) : Nat :=
  match c with
  | .rType _ | .iType _ | .store => 4
  | .load => 5
  | .branch _ | .jump _ | .halt => 3

end Sys2Proof.Machine
end

