-- ==== Sys2Proof/Machine/Operands.lean ====
section
/-! DEFINITION. Machine/Operands.lean: the multiplexers that choose operands, destination, write-back data
(40_alu.md R120 to R124) and the assembled targets (30_encoding.md R74, 43_datapath.md R176). -/

namespace Sys2Proof.Machine

/-- R121 to R123: a multiplexer of `capacity` inputs as a pure function; a select out of bounds or more inputs than
the capacity is OutOfRange. DESIGN CHOICE (notes/assumptions/10.md): a wrong number of inputs names that number, and where FEWER
inputs than the capacity are given, a select below the capacity and past the last input names the select; the spec says nothing
of that case (R123 has exactly N inputs), and no multiplexer of the datapath is built so. -/
def mux {α : Type} (capacity : Nat) (inputs : List α) (select : Nat) : Except RangeInfo α :=
  if capacity < inputs.length then .error (.inputCount inputs.length)
  else if capacity ≤ select then .error (.select select)
  else match inputs[select]? with
    | some v => .ok v
    | none => .error (.select select)

/-- R123, R124: a multiplexer whose inputs are wired in the order of a numbering; `value` drives each input. -/
def wiredMux {ι α : Type} {all : List ι} (t : Numbering all) (value : ι → α) (select : Nat) : Except RangeInfo α :=
  mux all.length (t.names.map value) select

/-- R124: ALU source A. -/
def aluSourceA (sel : BitVec 1) (s : State) : Except RangeInfo Word :=
  wiredMux s.cfg.selCode.aluSrcA (fun
    | .regA => s.a
    | .pc => s.pc) sel.toNat

/-- R124: ALU source B. -/
def aluSourceB (sel : BitVec 2) (f : Fields) (s : State) : Except RangeInfo Word :=
  wiredMux s.cfg.selCode.aluSrcB (fun
    | .regB => s.b
    | .imm => f.imm
    | .four => 4) sel.toNat

/-- R124: the destination register. -/
def destination (t : SelCode) (sel : BitVec 2) (f : Fields) : Except RangeInfo RegIdx :=
  wiredMux t.regDst (fun
    | .rt => f.rt
    | .rd => f.rd
    | .link => 31) sel.toNat

/-- R124: the write-back data. -/
def writeData (sel : BitVec 1) (s : State) : Except RangeInfo Word :=
  wiredMux s.cfg.selCode.memToReg (fun
    | .aluOut => s.aluOut
    | .mdr => s.mdr) sel.toNat

/-- R124: what `pc_source` selects. -/
def pcSourceOf (t : SelCode) (sel : BitVec 2) : Option PcSource := t.pcSource.name sel.toNat

/-- R74, R176: `trunc32(PC + trunc32(imm << 2))`. -/
def branchTarget (pc : Word) (f : Fields) : Word := pc + (f.imm <<< 2)

/-- R74, R176: `{PC[31:28], address, 0b00}`. -/
def jumpTarget (pc : Word) (f : Fields) : Word := pc.extractLsb' 28 4 ++ f.address ++ 0#2

/-- R122, R173: the first selector of a vector that is outside its multiplexer, checked before a phase changes any
state. `alu_src_a` and `mem_to_reg` are one wire each and always in range. -/
def Signals.badSelect (sig : Signals) : Option RangeInfo :=
  if 3 ≤ sig.pcSource.toNat then some (.select sig.pcSource.toNat)
  else if 3 ≤ sig.regDst.toNat then some (.select sig.regDst.toNat)
  else if 3 ≤ sig.aluSrcB.toNat then some (.select sig.aluSrcB.toNat)
  else none

end Sys2Proof.Machine
end

