-- ==== Sys2Proof/Machine/Datapath.lean ====
section
/-! DEFINITION. Machine/Datapath.lean: the phases of 43_datapath.md (R171 to R178), one whole single-cycle instruction
(R180) and one clock phase of a multi-cycle instruction (R181). -/

namespace Sys2Proof.Machine

/-! ## The phases -/

/-- R173: applying a vector: a selector out of range raises OutOfRange before the phase `k` changes any state. -/
def applying (sig : Signals) (s : State) (k : Res) : Res :=
  match sig.badSelect with
  | some e => raise (.outOfRange e) s
  | none => k

/-- R171: the second half of fetch: PC + 4 through the ALU always, committed if `pc_write`; it ignores `pc_source`. -/
def fetchAdvance (sig : Signals) (s : State) : Res :=
  match runAlu (aluCode s.cfg.aluOpCode .add) s.pc 4 s with
  | some (npc, s1) => .next { s1 with pc := gated sig.pcWrite npc s1.pc }
  | none => raise (.invalidOperation (aluCode s.cfg.aluOpCode .add)) s

/-- R171: the whole fetch phase, on the word `w` read at PC. -/
def fetchPhase (sig : Signals) (w : Word) (s : State) : Res :=
  applying sig s (fetchAdvance sig { s with ir := gated sig.irWrite w s.ir })

/-- R174: the free read of `x[rs]` and `x[rt]` into A and B. -/
def readRegisters (f : Fields) (s : State) : State :=
  { s with a := s.reg f.rs, b := s.reg f.rt }

/-- R176: the PC write of the execute phase; the PC it reads is the one at the start of the phase. -/
def redirect (sig : Signals) (f : Fields) (s : State) : State :=
  match sig.pcWrite, pcSourceOf s.cfg.selCode sig.pcSource with
  | true, some .branch => { s with pc := branchTarget s.pc f }
  | true, some .jump => { s with pc := jumpTarget s.pc f }
  | _, _ => s

/-- R175: the execute phase. The vector depends on the zero flag of this phase's own ALU operation (R139); its ALU fields
do not (notes/assumptions/15.md). Both the vector that feeds the ALU and the resolved one are range-checked before anything is
written (R173). -/
def execute (ctl : Bool → Signals) (f : Fields) (s : State) : Res :=
  applying (ctl false) s <|
    match aluSourceA (ctl false).aluSrcA s, aluSourceB (ctl false).aluSrcB f s with
    | .ok a, .ok b =>
      match runAlu (ctl false).aluOp a b s with
      | some (r, s1) => applying (ctl s1.flags.z) s (.next (redirect (ctl s1.flags.z) f { s1 with aluOut := r }))
      | none => raise (.invalidOperation (ctl false).aluOp) s
    | .error e, _ => raise (.outOfRange e) s
    | .ok _, .error e => raise (.outOfRange e) s

/-- R177: the memory_access phase, at the address in ALUOut. -/
def memoryAccess (sig : Signals) (s : State) : Res :=
  applying sig s <|
    if sig.memRead then
      match memRead s s.aluOut with
      | some w => .next { s with mdr := w }
      | none => raise (.outOfRange (.address s.aluOut)) s
    else if sig.memWrite then
      match memWrite s s.aluOut s.b with
      | some s1 => .next s1
      | none => raise (.outOfRange (.address s.aluOut)) s
    else .next s

/-- R178: the write_back phase. -/
def writeBack (sig : Signals) (f : Fields) (s : State) : Res :=
  applying sig s <|
    match destination s.cfg.selCode sig.regDst f, writeData sig.memToReg s with
    | .ok dst, .ok data => .next { s with x := RegFile.write s.x sig.regWrite dst data }
    | .error e, _ => raise (.outOfRange e) s
    | .ok _, .error e => raise (.outOfRange e) s

/-! ## One instruction, single-cycle (R180) -/

/-- R180, the phases after control evaluation, under the vector `ctl` of the instruction (a function of the zero flag
of its own execute phase). The vector is applied from the second half of fetch on, so a bad selector is reported there, before
PC, the flags, A and B change (R122, R173); IR was latched before there was a vector (notes/assumptions/17.md). -/
def scPhases (ctl : Bool → Signals) (w : Word) (s : State) : Res :=
  applying (ctl false) s <|
  andThen (fetchAdvance (ctl false) s) fun s1 =>
  andThen (execute ctl (fields w) (readRegisters (fields w) s1)) fun s2 =>
  andThen (memoryAccess (ctl s2.flags.z) s2) fun s3 =>
  writeBack (ctl s2.flags.z) (fields w) s3

/-- R180: one single-cycle step on the word `w` read at PC, of class `c`: IR is latched unconditionally, then the other
phases run. -/
def scInstr (w : Word) (c : InstrClass) (s : State) : Res :=
  scPhases (scControl s.cfg c) w { s with ir := w }

/-! ## One clock phase, multi-cycle (R181) -/

/-- R181: the datapath phase of an FSM state. The free read of DECODE is gated by no signal (R155, R174), but a vector applied
to it is range-checked like any other (R173). -/
def mcPhase (p : Phase) (ctl : Bool → Signals) (w : Word) (s : State) : Res :=
  match p with
  | .fetch => fetchPhase (ctl false) w s
  | .decode => applying (ctl false) s (.next (readRegisters (fields w) s))
  | .execute => execute ctl (fields w) s
  | .memory => memoryAccess (ctl false) s
  | .writeback => writeBack (ctl false) (fields w) s

/-- R159, R181: a phase that completes commits the next FSM state and counts one cycle; one that fails does neither. -/
def tick (nxt : Phase) (r : Res) : Res :=
  andThen r fun s => .next { s with fsm := nxt, cycles := s.cycles + 1 }

/-- R181: one clock phase of an instruction of class `c` whose word is `w`; refused for the pairs of R161. -/
def mcInstr (w : Word) (c : InstrClass) (s : State) : Res :=
  match mcControl s.cfg s.fsm c, nextState s.fsm c with
  | some ctl, some nxt => tick nxt (mcPhase s.fsm ctl w s)
  | _, _ => .refused (.unreachablePhase s.fsm)

/-! ## Both variants -/

/-- What an instruction of class `c` with word `w` does in one step of the machine that is built: all of it in the
single-cycle variant (R180), the clock phase that `fsm` names in the multi-cycle one (R181). -/
def runInstr (w : Word) (c : InstrClass) (s : State) : Res :=
  match s.cfg.variant with
  | .single => scInstr w c s
  | .multi => mcInstr w c s

/-- A step on a word `w` that is no instruction. Single-cycle: DecodeError after the IR latch and before anything else
(R180, R265). Multi-cycle: FETCH and DECODE complete as for any word (R162), every later state raises DecodeError
before anything of its phase (R265). -/
def runIllegal (w : Word) (s : State) : Res :=
  match s.cfg.variant, s.fsm with
  | .single, _ => raise (.decodeError w) { s with ir := w }
  | .multi, .fetch => tick .decode (mcPhase .fetch (fun _ => fetchVector s.cfg) w s)
  | .multi, .decode => tick .execute (mcPhase .decode (fun _ => sig0 s.cfg) w s)
  | .multi, _ => raise (.decodeError w) s

end Sys2Proof.Machine
end

