-- ==== Sys2Proof/Machine/BranchJumpHalt.lean ====
section
/-! DEFINITION. Machine/BranchJumpHalt.lean: the meanings of BEQ, BNE, J, JAL and HALT (47_insn_branch_jump_halt.md
R240 to R249). -/

namespace Sys2Proof.Machine

/-- R241: BEQ, taken exactly when `x[rs] = x[rt]`. -/
def execBeq (rs rt : RegIdx) (imm : BitVec 16) (s : State) : Res :=
  runInstr (encode s.cfg.isa (.beq rs rt imm)) (.branch .equal) s

/-- R242: BNE, taken exactly when `x[rs] != x[rt]`. -/
def execBne (rs rt : RegIdx) (imm : BitVec 16) (s : State) : Res :=
  runInstr (encode s.cfg.isa (.bne rs rt imm)) (.branch .notEqual) s

/-- R245: J; A, B, ALUOut and the flags are written as side effects. -/
def execJ (address : BitVec 26) (s : State) : Res :=
  runInstr (encode s.cfg.isa (.j address)) (.jump false) s

/-- R246: JAL; the link value reaches register 31 in the single-cycle variant only (R151, R158). -/
def execJal (address : BitVec 26) (s : State) : Res :=
  runInstr (encode s.cfg.isa (.jal address)) (.jump true) s

/-- R248: HALT; PC stays on it in the single-cycle variant (R140) and passes it in the multi-cycle one (R163). -/
def execHalt (ignored : BitVec 26) (s : State) : Res :=
  runInstr (encode s.cfg.isa (.halt ignored)) .halt s

end Sys2Proof.Machine
end

