-- ==== Sys2Proof/Machine/IType.lean ====
section
/-! DEFINITION. Machine/IType.lean: the meanings of the five I_TYPE instructions (45_insn_itype.md R220 to R225). The
immediate is sign-extended for all five (R73). -/

namespace Sys2Proof.Machine

/-- R221: ADDI, `x[rt] <- trunc32(x[rs] + imm)`, flags of that operation. -/
def execAddi (rt rs : RegIdx) (imm : BitVec 16) (s : State) : Res :=
  runInstr (encode s.cfg.isa (.addi rt rs imm)) (.iType .add) s

/-- R222: SLTI, `x[rt] <- 1 if signed(x[rs]) < signed(imm) else 0`, flags of that operation. -/
def execSlti (rt rs : RegIdx) (imm : BitVec 16) (s : State) : Res :=
  runInstr (encode s.cfg.isa (.slti rt rs imm)) (.iType .slt) s

/-- R223: ANDI, `x[rt] <- x[rs] AND sext_16(I[15:0])`, flags of that operation. -/
def execAndi (rt rs : RegIdx) (imm : BitVec 16) (s : State) : Res :=
  runInstr (encode s.cfg.isa (.andi rt rs imm)) (.iType .and) s

/-- R224: ORI, `x[rt] <- x[rs] OR sext_16(I[15:0])`, flags of that operation. -/
def execOri (rt rs : RegIdx) (imm : BitVec 16) (s : State) : Res :=
  runInstr (encode s.cfg.isa (.ori rt rs imm)) (.iType .or) s

/-- R225: XORI, `x[rt] <- x[rs] XOR sext_16(I[15:0])`, flags of that operation. -/
def execXori (rt rs : RegIdx) (imm : BitVec 16) (s : State) : Res :=
  runInstr (encode s.cfg.isa (.xori rt rs imm)) (.iType .xor) s

end Sys2Proof.Machine
end

