-- ==== Sys2Proof/Machine/LoadStore.lean ====
section
/-! DEFINITION. Machine/LoadStore.lean: the meanings of LW and SW (46_insn_load_store.md R230 to R234). -/

namespace Sys2Proof.Machine

/-- R231: LW, `x[rt] <- MemRead(x[rs] + imm, 4)` through MDR; the flags describe the address (R230). -/
def execLw (rt rs : RegIdx) (imm : BitVec 16) (s : State) : Res :=
  runInstr (encode s.cfg.isa (.lw rt rs imm)) .load s

/-- R232: SW, `MemWrite(x[rs] + imm, 4, x[rt])`; the flags describe the address (R230). -/
def execSw (rt rs : RegIdx) (imm : BitVec 16) (s : State) : Res :=
  runInstr (encode s.cfg.isa (.sw rt rs imm)) .store s

end Sys2Proof.Machine
end

