-- ==== Sys2Proof/Machine/RType.lean ====
section
/-! DEFINITION. Machine/RType.lean: the meanings of the nine R_TYPE instructions (44_insn_rtype.md R200 to R210). -/

namespace Sys2Proof.Machine

/-- R201: ADD, `x[rd] <- trunc32(x[rs] + x[rt])`, flags of that operation. -/
def execAdd (rd rs rt shamt : RegIdx) (s : State) : Res :=
  runInstr (encode s.cfg.isa (.add rd rs rt shamt)) (.rType .add) s

/-- R202: SUB, `x[rd] <- trunc32(x[rs] - x[rt])`, flags of that operation. -/
def execSub (rd rs rt shamt : RegIdx) (s : State) : Res :=
  runInstr (encode s.cfg.isa (.sub rd rs rt shamt)) (.rType .sub) s

/-- R203: AND, `x[rd] <- x[rs] AND x[rt]`, flags of that operation. -/
def execAnd (rd rs rt shamt : RegIdx) (s : State) : Res :=
  runInstr (encode s.cfg.isa (.and rd rs rt shamt)) (.rType .and) s

/-- R204: OR, `x[rd] <- x[rs] OR x[rt]`, flags of that operation. -/
def execOr (rd rs rt shamt : RegIdx) (s : State) : Res :=
  runInstr (encode s.cfg.isa (.or rd rs rt shamt)) (.rType .or) s

/-- R208: XOR, `x[rd] <- x[rs] XOR x[rt]`, flags of that operation. -/
def execXor (rd rs rt shamt : RegIdx) (s : State) : Res :=
  runInstr (encode s.cfg.isa (.xor rd rs rt shamt)) (.rType .xor) s

/-- R205: SLL, `x[rd] <- trunc32(x[rs] << x[rt][4:0])`, flags of that operation. -/
def execSll (rd rs rt shamt : RegIdx) (s : State) : Res :=
  runInstr (encode s.cfg.isa (.sll rd rs rt shamt)) (.rType .sll) s

/-- R206: SRL, `x[rd] <- x[rs] >> x[rt][4:0], zeros shifted in`, flags of that operation. -/
def execSrl (rd rs rt shamt : RegIdx) (s : State) : Res :=
  runInstr (encode s.cfg.isa (.srl rd rs rt shamt)) (.rType .srl) s

/-- R207: SRA, `x[rd] <- trunc32(signed(x[rs]) >> x[rt][4:0])`, flags of that operation. -/
def execSra (rd rs rt shamt : RegIdx) (s : State) : Res :=
  runInstr (encode s.cfg.isa (.sra rd rs rt shamt)) (.rType .sra) s

/-- R209: SLT, `x[rd] <- 1 if signed(x[rs]) < signed(x[rt]) else 0`, flags of that operation. -/
def execSlt (rd rs rt shamt : RegIdx) (s : State) : Res :=
  runInstr (encode s.cfg.isa (.slt rd rs rt shamt)) (.rType .slt) s

end Sys2Proof.Machine
end

