-- ==== Sys2Proof/Machine/Step.lean ====
section
/-! DEFINITION. Machine/Step.lean: one step of the machine (R180, R181) and the placing of a word where the next step
fetches. -/

namespace Sys2Proof.Machine

/-- One step: `sc_step` (R180) or `mc_step` (R181), by the variant. A fetch outside memory is OutOfRange before anything
else (R269). -/
def step (s : State) : Host.Outcome State Fault Refusal :=
  match wordInForce s with
  | none => raise (.outOfRange (.address s.pc)) s
  | some w =>
    match decode s.cfg.isa w with
    | .ok i => exec i s
    | .error _ => runIllegal w s

/-- The instruction word `w` stored in the cell PC points to and, in the multi-cycle variant, the FSM in FETCH, so that
the very next step fetches it (all of it runs in that step in the single-cycle variant; in the multi-cycle one it runs
over the next 3 to 5 steps). Where PC lies outside memory there is no cell to store in and the word is not placed. -/
def State.withFetchWord (s : State) (nbits w : Nat) : State :=
  match memWrite s s.pc (BitVec.ofNat 32 (w % 2 ^ nbits)), s.cfg.variant with
  | some s1, .single => s1
  | some s1, .multi => { s1 with fsm := .fetch }
  | none, _ => s

end Sys2Proof.Machine
end

