-- ==== Sys2Proof/Machine/HostOps.lean ====
section
/-! DEFINITION. Machine/HostOps.lean: what the host may do between steps (70_reset_and_hazards.md R290 to R304) and the
end-of-run predicate (R296). The host has no command that writes a general register, a holding register, a flag, the
FSM state or `cycles` (R304). -/

namespace Sys2Proof.Machine

/-- R290: `reset()`: registers, flags, FSM and counter to their reset values, Memory untouched (R292), the parameters
unchanged. -/
def hostReset (s : State) : State := { State.powerOn s.cfg with mem := s.mem }

/-- R304: `set_pc(v)`. -/
def setPc (v : Int) (s : State) : State := { s with pc := trunc32 v }

/-- R302: `load_words(start, ws)`, cell by cell; the cells written before an OutOfRange stay written. -/
def loadWords (start : Word) (ws : List Int) (s : State) : Res :=
  match ws with
  | [] => .next s
  | v :: rest =>
    match memWrite s start (trunc32 v) with
    | some s1 => loadWords (start + 4) rest s1
    | none => raise (.outOfRange (.address start)) s

/-- R303: `dump(start, n)`; nothing is returned if any cell is outside memory. -/
def dump (start : Word) (n : Nat) (s : State) : Except RangeInfo (List Word) :=
  match n with
  | 0 => .ok []
  | k + 1 =>
    match memRead s start with
    | some w => (dump (start + 4) k s).map fun ws => w :: ws
    | none => .error (.address start)

/-- R300: `run(N)`: up to N steps, stopping at the first error, with the number of steps completed. It does not look for
a HALT. -/
def runSteps (n : Nat) (s : State) : Res × Nat :=
  match n with
  | 0 => (.next s, 0)
  | k + 1 =>
    match step s with
    | .next s1 => ((runSteps k s1).1, (runSteps k s1).2 + 1)
    | .fault f => (.fault f, 0)
    | .refused r => (.refused r, 0)

/-! ## Read accessors (R301): none changes any state -/

/-- `read_pc()` -/
def readPc (s : State) : Word := s.pc
/-- `read_ir()` -/
def readIr (s : State) : Word := s.ir
/-- `read_a()` -/
def readA (s : State) : Word := s.a
/-- `read_b()` -/
def readB (s : State) : Word := s.b
/-- `read_alu_out()` -/
def readAluOut (s : State) : Word := s.aluOut
/-- `read_mdr()` -/
def readMdr (s : State) : Word := s.mdr
/-- `read_flags()`: (Z, N, V) -/
def readFlags (s : State) : Flags := s.flags

/-- `read_reg(i)`: OutOfRange(i) above 31. -/
def readReg (i : Nat) (s : State) : Except RangeInfo Word :=
  if i < 32 then .ok (RegFile.read s.x (BitVec.ofNat 5 i)) else .error (.register i)

/-- `read_regs()`: `x[0]` to `x[31]`. -/
def readRegs (s : State) : List Word := (List.range 32).map fun i => RegFile.read s.x (BitVec.ofNat 5 i)

/-- `read_state()`: the multi-cycle variant only. -/
def readState (s : State) : Option Phase :=
  match s.cfg.variant with
  | .single => none
  | .multi => some s.fsm

/-- `read_cycles()`: the multi-cycle variant only. -/
def readCycles (s : State) : Option Nat :=
  match s.cfg.variant with
  | .single => none
  | .multi => some s.cycles

/-! ## The end of a run (R296) -/

/-- R296: IR holds a HALT. -/
def irIsHalt (s : State) : Bool :=
  match classify s.cfg.isa s.ir with
  | .ok .halt => true
  | _ => false

/-- R296: `at_halt`, evaluated after a step that returned ok. -/
def atHalt (s : State) : Bool :=
  match s.cfg.variant with
  | .single => irIsHalt s
  | .multi => s.fsm == .fetch && irIsHalt s

end Sys2Proof.Machine
end

