-- ==== Sys2Proof/Machine/Ports.lean ====
section
/-! DEFINITION. Machine/Ports.lean: the logical ports the spec names for test benches (D30): the FSM state code (R38), the
error code (R262), the ALU block (R114), the two control-unit blocks (R130, R150) and the machine's taps (R183). The
decoder block (R90) is `fields`. -/

namespace Sys2Proof.Machine

/-- R38, D26: the 3-bit code of the FSM state; codes 5 to 7 are unused. -/
def Phase.code : Phase → BitVec 3
  | .fetch => 0
  | .decode => 1
  | .execute => 2
  | .memory => 3
  | .writeback => 4

/-- R262: the wire code of an error. -/
def Fault.wireCode : Fault → BitVec 2
  | .invalidOperation _ _ => 1
  | .outOfRange _ _ => 2
  | .decodeError _ _ => 3

/-- R183, R262: `error[1:0]`, the outcome of the latest step; none for a refusal, which is the model's own. -/
def errorPort : Res → Option (BitVec 2)
  | .next _ => some 0
  | .fault f => some f.wireCode
  | .refused _ => none

/-- R114: the outputs of the ALU block. Where `invalid` is asserted the ALU "produces no result" (R112), so there is
none to show. -/
structure AluPorts where
  result : Option (Word × Flags)
  invalid : Bool
  deriving DecidableEq, Repr

/-- R114: the ALU block; `invalid` is asserted for `op` above 8. -/
def aluBlock (t : AluOpCode) (a b : Word) (op : BitVec 4) : AluPorts :=
  { result := alu t op a b, invalid := decide (8 < op.toNat) }

/-- R130: the single-cycle control unit, `sc_control(IR, zero) -> ControlSignals or DecodeError`. -/
def scUnit (cfg : Config) (instr : Word) (zero : Bool) : Except DecodeReject Signals :=
  (classify cfg.isa instr).map fun c => scControl cfg c zero

/-- R150, R152, R162: the multi-cycle control unit. FETCH and DECODE do not look at the word; none is a pair of
R161. -/
def mcUnit (cfg : Config) (p : Phase) (instr : Word) (zero : Bool) : Except DecodeReject (Option Signals) :=
  match p with
  | .fetch => .ok (some (fetchVector cfg))
  | .decode => .ok (some (sig0 cfg))
  | .execute | .memory | .writeback =>
    (classify cfg.isa instr).map fun c => (mcControl cfg p c).map fun ctl => ctl zero

/-- R183: the read-only taps of the machine (memory is read by `dump`, the error by `errorPort`). -/
structure Taps where
  pc : Word
  ir : Word
  a : Word
  b : Word
  aluOut : Word
  mdr : Word
  regs : List Word
  zero : Bool
  negative : Bool
  overflow : Bool
  /-- multi-cycle only -/
  state : Option (BitVec 3)
  /-- multi-cycle only -/
  cycles : Option Nat
  deriving DecidableEq, Repr

/-- R183: the taps of a state. -/
def taps (s : State) : Taps where
  pc := readPc s
  ir := readIr s
  a := readA s
  b := readB s
  aluOut := readAluOut s
  mdr := readMdr s
  regs := readRegs s
  zero := (readFlags s).z
  negative := (readFlags s).n
  overflow := (readFlags s).v
  state := (readState s).map Phase.code
  cycles := readCycles s

end Sys2Proof.Machine
end

