-- ==== Sys2Proof/Safety.lean ====
section
/-! DEFINITION. Safety.lean: what counts as a legal state and a safe run, in the terms the statements use. -/

namespace Sys2Proof.Machine

/-- R161: the FSM is in a state its instruction's class can be in: MEMORY only under LOAD or STORE, WRITEBACK only
under R_TYPE, I_TYPE or LOAD. -/
def phaseFits (t : IsaTable) (p : Phase) (ir : Word) : Bool :=
  match p with
  | .fetch | .decode | .execute => true
  | .memory =>
    match classify t ir with
    | .ok .load | .ok .store => true
    | _ => false
  | .writeback =>
    match classify t ir with
    | .ok (.rType _) | .ok (.iType _) | .ok .load => true
    | _ => false

/-- What holds at power-on and what every step keeps: legal parameters (R6), memory in canonical form and inside its
size (R50), the hard-wired cell untouched (R22), and the FSM in a reachable pair (R161), at rest in the single-cycle
variant (R38, R39). -/
structure Inv (s : State) : Prop where
  cfg : s.cfg.valid = true
  memWf : Memory.wf s.mem = true
  memWithin : Memory.within s.cfg.memWords s.mem = true
  zeroCell : s.x[0] = 0
  phase : s.cfg.variant = .multi → phaseFits s.cfg.isa s.fsm s.ir = true
  atRest : s.cfg.variant = .single → s.fsm = .fetch ∧ s.cycles = 0

/-- `n` steps from `s` all return ok. -/
def SafeFor (n : Nat) (s : State) : Prop := ∃ t, Host.Core.run core n s = .next t

/-- R296: the run from `s` ends, without an error, at the first step after which `at_halt` holds, after `n` steps,
in the state `t`. -/
def HaltsIn (n : Nat) (s t : State) : Prop :=
  0 < n ∧ Host.Core.run core n s = .next t ∧ atHalt t = true ∧
    ∀ k u, 0 < k → k < n → Host.Core.run core k s = .next u → atHalt u = false

end Sys2Proof.Machine
end

