-- ==== Sys2Proof/Certificates/Slice0/Obligations.lean ====
section
/-! DEFINITION. Certificates/Slice0/Obligations.lean: the statements for the provers. Statements about `exec` in the
single-cycle variant give the whole next state, so each is at once the instruction's result, its frame and where it
completes. Every statement ranges over every state, so over every MEM_WORDS, every memory image and, where it does not
name the spec's own (`standard`), every numbering table of R6. -/

open Sys2Proof Sys2Proof.Machine

/-! ## Encoding and decoding (30_encoding.md) -/

/-- 30_encoding.md R94 and 95_test_vectors.md 2.10: one word of each class, written out there. The opcode and funct values are
the spec's own decisions D6, D7, D8 (`IsaTable.standard`, log entry 2). -/
def Obligations.DecodeKnownWords : Prop :=
  decode .standard 0x00221820 = .ok (.add 3 1 2 0) ∧ decode .standard 0x00221803 = .ok (.sra 3 1 2 0) ∧
  decode .standard 0x2022FFFC = .ok (.addi 2 1 0xFFFC) ∧ decode .standard 0x8C22FFFC = .ok (.lw 2 1 0xFFFC) ∧
  decode .standard 0xAC220010 = .ok (.sw 2 1 0x0010) ∧ decode .standard 0x10220010 = .ok (.beq 1 2 0x0010) ∧
  decode .standard 0x1422FFFC = .ok (.bne 1 2 0xFFFC) ∧ decode .standard 0x0C000010 = .ok (.jal 0x10) ∧
  decode .standard 0xFC221234 = .ok (.halt 0x221234) ∧ decode .standard 0x04000000 = .error (.unknownOpcode 1) ∧
  decode .standard 0x0000002B = .error (.unknownFunct 0x2B)

/-- Decoding the word of an instruction gives the instruction back, every operand at every value, the ignored fields too (R71,
R75, R85), under every ISA_TABLE (R6). Ignored fields: the spec's own decision D10; the form of the table is log entry 2. -/
def Obligations.DecodeEncode : Prop := ∀ (t : IsaTable) (i : Instr), decode t (encode t i) = .ok i

/-- Every word that decodes is the word of the instruction it decodes to: no bit is dropped (R71, R85), under every ISA_TABLE
(R6). Ignored fields: the spec's own decision D10; the form of the table is log entry 2. -/
def Obligations.EncodeDecode : Prop := ∀ (t : IsaTable) (w : Word) (i : Instr), decode t w = .ok i → encode t i = w

/-- R86: a word is rejected exactly when its opcode is none of the 13 of R80, or is 0 with a funct none of the nine of R81; so
51 opcodes and 55 functs are illegal. The tables and the unknown funct are the spec's own decisions D6 to D9 (`IsaTable.standard`,
log entry 2). -/
def Obligations.IllegalWordsAreExactlyThese : Prop :=
  ∀ w : Word, (∃ e, classify .standard w = .error e) ↔
    (opcodeOf w ∉ [0x00#6, 0x02#6, 0x03#6, 0x04#6, 0x05#6, 0x08#6, 0x0A#6, 0x0C#6, 0x0D#6, 0x0E#6, 0x23#6, 0x2B#6, 0x3F#6]) ∨
    (opcodeOf w = 0x00#6 ∧
      functOf w ∉ [0x00#6, 0x02#6, 0x03#6, 0x20#6, 0x22#6, 0x24#6, 0x25#6, 0x26#6, 0x2A#6])

/-- R91, line by line: what `classify` returns on each opcode and funct of the tables R80, R81, R82, and that it rejects every
other word. The tables are the spec's own decisions D6 to D9 (`IsaTable.standard`, log entry 2). -/
def Obligations.ClassifyFollowsTheTables : Prop :=
  ∀ w : Word,
    (opcodeOf w = 0x00 → ∀ op,
      (functOf w, op) ∈ [(0x00#6, AluOp.sll), (0x02#6, .srl), (0x03#6, .sra), (0x20#6, .add), (0x22#6, .sub),
        (0x24#6, .and), (0x25#6, .or), (0x26#6, .xor), (0x2A#6, .slt)] → classify .standard w = .ok (.rType op)) ∧
    (∀ op, (opcodeOf w, op) ∈ [(0x08#6, AluOp.add), (0x0A#6, .slt), (0x0C#6, .and), (0x0D#6, .or), (0x0E#6, .xor)] →
      classify .standard w = .ok (.iType op)) ∧
    (opcodeOf w = 0x23 → classify .standard w = .ok .load) ∧ (opcodeOf w = 0x2B → classify .standard w = .ok .store) ∧
    (opcodeOf w = 0x04 → classify .standard w = .ok (.branch .equal)) ∧
    (opcodeOf w = 0x05 → classify .standard w = .ok (.branch .notEqual)) ∧
    (opcodeOf w = 0x02 → classify .standard w = .ok (.jump false)) ∧ (opcodeOf w = 0x03 → classify .standard w = .ok (.jump true)) ∧
    (opcodeOf w = 0x3F → classify .standard w = .ok .halt) ∧
    (opcodeOf w = 0x00 → functOf w ∉ [0x00#6, 0x02#6, 0x03#6, 0x20#6, 0x22#6, 0x24#6, 0x25#6, 0x26#6, 0x2A#6] →
      classify .standard w = .error (.unknownFunct (functOf w))) ∧
    (opcodeOf w ∉ [0x00#6, 0x02#6, 0x03#6, 0x04#6, 0x05#6, 0x08#6, 0x0A#6, 0x0C#6, 0x0D#6, 0x0E#6, 0x23#6, 0x2B#6, 0x3F#6] →
      classify .standard w = .error (.unknownOpcode (opcodeOf w)))

/-- A step runs the decoded instruction. The word in force is the Word at PC where the step begins with a fetch (single-cycle,
or multi-cycle in FETCH), else the word in IR; where it decodes to `i`, the step is `exec i` and nothing is added around it.
When the word is read and when it is classified: the spec's own decisions D11, D24; that `exec` includes the IR latch is the
model's choice, log entry 9. -/
def Obligations.StepRunsDecodedInstruction : Prop :=
  (∀ s : State, s.cfg.variant = .single ∨ s.fsm = .fetch → wordInForce s = memRead s s.pc) ∧
  (∀ s : State, s.cfg.variant = .multi → s.fsm ≠ .fetch → wordInForce s = some s.ir) ∧
  ∀ (s : State) (w : Word) (i : Instr), wordInForce s = some w → decode s.cfg.isa w = .ok i → step s = exec i s

/-! ## The ALU and the multiplexers (40_alu.md) -/

/-- R102, R103: ADD and SUB on codes 0 and 1: the result modulo 2^32 and the three flags from the sign bits. The codes are
numbered by R100 (the spec's own decision D1). -/
def Obligations.AluAddAndSub : Prop :=
  ∀ a b : Word,
    (∃ r f, alu .standard 0 a b = some (r, f) ∧ r.toNat = (a.toNat + b.toNat) % 2 ^ 32 ∧ (f.z = true ↔ r = 0) ∧ f.n = r.msb ∧
      (f.v = true ↔ a.msb = b.msb ∧ r.msb ≠ a.msb)) ∧
    (∃ r f, alu .standard 1 a b = some (r, f) ∧ (r.toNat : Int) = ((a.toNat : Int) - b.toNat) % 2 ^ 32 ∧ (f.z = true ↔ r = 0) ∧
      (f.z = true ↔ a = b) ∧ f.n = r.msb ∧ (f.v = true ↔ a.msb ≠ b.msb ∧ r.msb ≠ a.msb))

/-- 40_alu.md R115: V after ADD (SUB) is set exactly when the signed sum (difference) is outside -2^31 .. 2^31 - 1. The spec
derives it from R101. -/
def Obligations.OverflowIsSignedRange : Prop :=
  ∀ a b : Word,
    ((aluFlags .add a b).v = true ↔ a.toInt + b.toInt < -2 ^ 31 ∨ 2 ^ 31 - 1 < a.toInt + b.toInt) ∧
    ((aluFlags .sub a b).v = true ↔ a.toInt - b.toInt < -2 ^ 31 ∨ 2 ^ 31 - 1 < a.toInt - b.toInt)

/-- R104, R105, R106: AND, OR and XOR on codes 2, 3 and 4, bit by bit; Z and N from the result, V false. The codes are
numbered by R100 (the spec's own decision D1). -/
def Obligations.AluLogic : Prop :=
  ∀ (a b : Word) (op : BitVec 4) (g : Bool → Bool → Bool),
    (op, g) ∈ [(2#4, and), (3#4, or), (4#4, xor)] →
    ∃ r f, alu .standard op a b = some (r, f) ∧ (∀ i, i < 32 → r.getLsbD i = g (a.getLsbD i) (b.getLsbD i)) ∧
      (f.z = true ↔ r = 0) ∧ f.n = r.getLsbD 31 ∧ f.v = false

/-- R107, R108, R109: SLL, SRL and SRA on codes 5, 6 and 7, as numbers, with `s = b[4:0]`; SRA keeps the sign bit; Z and N
from the result, V false. Which input is shifted, and that only b[4:0] counts, are the spec's own decisions D2, D3. -/
def Obligations.AluShifts : Prop :=
  ∀ a b : Word,
    (∃ r f, alu .standard 5 a b = some (r, f) ∧ r.toNat = a.toNat * 2 ^ (b.toNat % 32) % 2 ^ 32 ∧
      (f.z = true ↔ r = 0) ∧ f.n = r.msb ∧ f.v = false) ∧
    (∃ r f, alu .standard 6 a b = some (r, f) ∧ r.toNat = a.toNat / 2 ^ (b.toNat % 32) ∧
      (f.z = true ↔ r = 0) ∧ f.n = r.msb ∧ f.v = false) ∧
    (∃ r f, alu .standard 7 a b = some (r, f) ∧ r.toInt = a.toInt / 2 ^ (b.toNat % 32) ∧ r.msb = a.msb ∧
      (f.z = true ↔ r = 0) ∧ f.n = a.msb ∧ f.v = false)

/-- R110: SLT on code 8: 1 if `a` is less than `b` as signed numbers, else 0, right also where the subtraction overflows; Z
exactly when not less, N and V false. And R115's law: less is N xor V of the subtraction. That the set value is the Word 1 is
the spec's own decision D4. -/
def Obligations.AluSetLessThan : Prop :=
  ∀ a b : Word, ∃ r f, alu .standard 8 a b = some (r, f) ∧ (a.toInt < b.toInt → r = 1) ∧ (b.toInt ≤ a.toInt → r = 0) ∧
    (f.z = true ↔ b.toInt ≤ a.toInt) ∧ f.n = false ∧ f.v = false ∧
    (r = 1 ↔ (aluFlags .sub a b).n ≠ (aluFlags .sub a b).v)

/-- R112, R263: exactly the codes 9 to 15 are InvalidOperation; an execute phase whose vector carries one, its selectors in
range, reports that code and changes nothing, ALUOut and the flags included. The 4-bit wire and what the error leaves are the
spec's own decisions D27, D36. -/
def Obligations.InvalidOperationCodes : Prop :=
  (∀ (t : AluOpCode) (op : BitVec 4) (a b : Word), alu t op a b = none ↔ 9 ≤ op.toNat) ∧
  ∀ (sig : Signals) (f : Fields) (s : State), 9 ≤ sig.aluOp.toNat → sig.pcSource ≠ 3 → sig.regDst ≠ 3 → sig.aluSrcB ≠ 3 →
    execute (fun _ => sig) f s = .fault (.invalidOperation sig.aluOp s)

/-- R121: the output of a multiplexer within its capacity is the input whose index equals `select`. R122: a select out of
bounds, or more inputs than capacity, is OutOfRange (that the second names the number of inputs is the model's choice, log
entry 10). R122, R173: each phase given a vector with `alu_src_b = 3`, `pc_source = 3` or `reg_dst = 3` aborts before it changes
any state: each of the five clock phases, and in the single-cycle variant all that follows the IR latch (that IR has been
latched by then is deduced from R180, log entry 17). -/
def Obligations.MultiplexerSelection : Prop :=
  (∀ (α : Type) (inputs : List α) (n k : Nat), inputs.length = n →
    (∀ h : k < inputs.length, mux n inputs k = .ok (inputs[k])) ∧ (n ≤ k → mux n inputs k = .error (.select k))) ∧
  (∀ (α : Type) (inputs : List α) (n k : Nat), n < inputs.length → mux n inputs k = .error (.inputCount inputs.length)) ∧
  ∀ (sig : Signals) (f : Fields) (w : Word) (s : State), sig.aluSrcB = 3 ∨ sig.pcSource = 3 ∨ sig.regDst = 3 →
    fetchPhase sig w s = .fault (.outOfRange (.select 3) s) ∧
    execute (fun _ => sig) f s = .fault (.outOfRange (.select 3) s) ∧
    memoryAccess sig s = .fault (.outOfRange (.select 3) s) ∧ writeBack sig f s = .fault (.outOfRange (.select 3) s) ∧
    (∀ p : Phase, mcPhase p (fun _ => sig) w s = .fault (.outOfRange (.select 3) s)) ∧
    scPhases (fun _ => sig) w s = .fault (.outOfRange (.select 3) s)

/-! ## Registers and memory (10_state.md, 20_memory.md) -/

/-- R22, R23: index 0 reads 0 in every state, on a read port and through the host's accessor, any other index reads its
cell; a write with the gate on reaches the named register and no other, a write to index 0 or with the gate off changes
nothing. -/
def Obligations.RegisterFilePorts : Prop :=
  ∀ (x : RegFile) (enable : Bool) (i j : RegIdx) (v : Word),
    RegFile.read x 0 = 0 ∧ (∀ s : State, readReg 0 s = .ok 0) ∧ (i ≠ 0 → RegFile.read x i = x[i.toNat]'i.isLt) ∧
    RegFile.write x enable 0 v = x ∧ RegFile.write x false i v = x ∧
    (i ≠ 0 → RegFile.read (RegFile.write x true i v) i = v) ∧
    (j ≠ i → RegFile.read (RegFile.write x enable i v) j = RegFile.read x j)

/-- R52, R53, R54, R55: reading and writing memory by byte address: in range exactly when `addr / 4 < MEM_WORDS`; a read
returns the cell's Word; a write that succeeds stores `trunc32(v)` and changes nothing but memory: a read after it gives the Word
written at every address of the same cell, whatever its two low bits, and what it gave before everywhere else. (The canonical form
of `Memory.wf` is the model's, log entry 3.) -/
def Obligations.MemoryReadsAndWrites : Prop :=
  ∀ (s : State) (addr : Word) (v : Int), Memory.wf s.mem = true →
    (addr.toNat / 4 < s.cfg.memWords → memRead s addr = some (Memory.read s.mem (addr.toNat / 4))) ∧
    (s.cfg.memWords ≤ addr.toNat / 4 → memRead s addr = none) ∧
    (memWrite s addr (trunc32 v) = none ↔ s.cfg.memWords ≤ addr.toNat / 4) ∧
    ∀ t, memWrite s addr (trunc32 v) = some t →
      t = { s with mem := t.mem } ∧ Memory.wf t.mem = true ∧
      (∀ a : Word, a.toNat / 4 = addr.toNat / 4 → memRead t a = some (trunc32 v)) ∧
      (∀ a : Word, a.toNat / 4 ≠ addr.toNat / 4 → memRead t a = memRead s a)

/-- The canonical form of notes/assumptions/3.md is one: two canonical memories that read alike are the same data. -/
def Obligations.CanonicalMemoryIsUnique : Prop :=
  ∀ m m' : Memory, Memory.wf m = true → Memory.wf m' = true → (∀ i, Memory.read m i = Memory.read m' i) → m = m'

/-! ## The control units (41, 42) -/

/-- R37, R132, R153: every vector either control unit produces has an `alu_op` in 0..8, every selector in range, and at most
one of `mem_read` and `mem_write`. The spec derives it from its tables; it holds for every ALU_OP_CODE and SEL_CODE. -/
def Obligations.ControlVectorsAreLegal : Prop :=
  ∀ (cfg : Config) (sig : Signals),
    ((∃ c zero, sig = scControl cfg c zero) ∨ (∃ p c ctl zero, mcControl cfg p c = some ctl ∧ sig = ctl zero)) →
    sig.aluOp.toNat ≤ 8 ∧ sig.badSelect = none ∧ ¬(sig.memRead = true ∧ sig.memWrite = true)

/-- R154, R155, R157: the vectors of the FETCH, DECODE and MEMORY states; FETCH and DECODE have the same one for every class. Under
every SEL_CODE the FETCH vector selects PC, the constant 4 and ADD; under the spec's own tables all eleven fields are written
out. The selector numbers 1 and 2 are the spec's own decision D5, the zeros of the default vector its D17; that both are
parameters is log entry 2, what the default is under other numbers log entry 16. -/
def Obligations.McPhaseVectors : Prop :=
  ∀ (cfg : Config) (c : InstrClass),
    (∃ sig, mcControl cfg .fetch c = some (fun _ => sig) ∧ sig.memRead = true ∧ sig.irWrite = true ∧ sig.pcWrite = true ∧
      sig.aluSrcA = srcACode cfg.selCode .pc ∧ sig.aluSrcB = srcBCode cfg.selCode .four ∧
      sig.aluOp = aluCode cfg.aluOpCode .add) ∧
    (cfg.aluOpCode = .standard → cfg.selCode = .standard →
      mcControl cfg .fetch c = some (fun _ =>
        { pcWrite := true, pcSource := 0, memRead := true, memWrite := false, regWrite := false, regDst := 0, aluSrcA := 1,
          aluSrcB := 2, aluOp := 0, memToReg := 0, irWrite := true }) ∧
      mcControl cfg .decode c = some (fun _ =>
        { pcWrite := false, pcSource := 0, memRead := false, memWrite := false, regWrite := false, regDst := 0, aluSrcA := 0,
          aluSrcB := 0, aluOp := 0, memToReg := 0, irWrite := false }) ∧
      mcControl cfg .memory .load = some (fun _ =>
        { pcWrite := false, pcSource := 0, memRead := true, memWrite := false, regWrite := false, regDst := 0, aluSrcA := 0,
          aluSrcB := 0, aluOp := 0, memToReg := 0, irWrite := false }) ∧
      mcControl cfg .memory .store = some (fun _ =>
        { pcWrite := false, pcSource := 0, memRead := false, memWrite := true, regWrite := false, regDst := 0, aluSrcA := 0,
          aluSrcB := 0, aluOp := 0, memToReg := 0, irWrite := false }))

/-- R151, R161: the transition function, row by row, of the document's table; it has no value on the pairs the FSM cannot reach, which
are exactly the pairs for which the control unit has no vector (the spec's own decision D32). That (WRITEBACK, JAL), excepted by
R161, goes to FETCH like R151's row is log entry 7. -/
def Obligations.TransitionTable : Prop :=
  ∀ c : InstrClass,
    (∀ (cfg : Config) (p : Phase), nextState p c = none ↔ mcControl cfg p c = none) ∧
    nextState .fetch c = some .decode ∧ nextState .decode c = some .execute ∧
    nextState .execute c =
      (match c with
        | .load | .store => some .memory
        | .rType _ | .iType _ => some .writeback
        | .branch _ | .jump _ | .halt => some .fetch) ∧
    nextState .memory c =
      (match c with
        | .load => some .writeback
        | .store => some .fetch
        | .rType _ | .iType _ | .branch _ | .jump _ | .halt => none) ∧
    nextState .writeback c =
      (match c with
        | .rType _ | .iType _ | .load | .jump true => some .fetch
        | .store | .branch _ | .jump false | .halt => none)

/-- 43_datapath.md R181, 10_state.md R39: every multi-cycle step that completes adds one to `cycles` and moves the FSM along
R151's table for the class of the word in force; FETCH and DECODE move on whatever the word is, legal or not. That the class
is demanded from EXECUTE on, and the counter, are the spec's own decisions D24, D28. -/
def Obligations.McStepFollowsTheFsm : Prop :=
  ∀ s t : State, s.cfg.variant = .multi → step s = .next t →
    t.cycles = s.cycles + 1 ∧
    (s.fsm = .fetch → t.fsm = .decode) ∧ (s.fsm = .decode → t.fsm = .execute) ∧
    (s.fsm = .execute ∨ s.fsm = .memory ∨ s.fsm = .writeback →
      ∃ c, classify s.cfg.isa s.ir = .ok c ∧ nextState s.fsm c = some t.fsm)

/-- The visited states of one instruction of each class, starting in FETCH (R160). -/
def visitedStates (c : InstrClass) : List Phase :=
  match c with
  | .rType _ | .iType _ => [.fetch, .decode, .execute, .writeback]
  | .load => [.fetch, .decode, .execute, .memory, .writeback]
  | .store => [.fetch, .decode, .execute, .memory]
  | .branch _ | .jump _ | .halt => [.fetch, .decode, .execute]

/-- R160: from FETCH on a word of class `c`, as long as no step fails, the states visited are those of the class, in order,
and then FETCH again; there are 3 to 5 of them. The spec derives it from R151. -/
def Obligations.VisitedStatesMatchTheClass : Prop :=
  ∀ (s : State) (w : Word) (c : InstrClass), s.cfg.variant = .multi → s.fsm = .fetch → memRead s s.pc = some w →
    classify s.cfg.isa w = .ok c → ∀ (k : Nat) (t : State), k ≤ (visitedStates c).length →
    Host.Core.run core k s = .next t → t.fsm = (visitedStates c)[k]?.getD .fetch ∧ t.cycles = s.cycles + k

/-! ## One whole instruction (44 to 47), in both variants: result, frame and completion -/

/-- The whole instruction `i` takes `s` to `t`. Single-cycle: `exec` answers `t`. Multi-cycle: from FETCH with the word of `i`
at PC, the clock phases of its class all complete, end in `t`, and `cycles` has advanced by their number. -/
def Executes (i : Instr) (s t : State) : Prop :=
  (s.cfg.variant = .single → exec i s = .next t) ∧
  (s.cfg.variant = .multi → s.fsm = .fetch → memRead s s.pc = some (encode s.cfg.isa i) →
    Host.Core.run core (phaseCount (classOf i)) s = .next { t with cycles := s.cycles + phaseCount (classOf i) })

/-- What R200 leaves after an R_TYPE instruction: everything not named is unchanged. -/
def afterRType (i : Instr) (op : AluOp) (rd rs rt : RegIdx) (s : State) : State :=
  { s with
    ir := encode s.cfg.isa i
    pc := s.pc + 4
    a := s.reg rs
    b := s.reg rt
    aluOut := aluResult op (s.reg rs) (s.reg rt)
    flags := aluFlags op (s.reg rs) (s.reg rt)
    x := RegFile.write s.x true rd (aluResult op (s.reg rs) (s.reg rt)) }

/-- R200 to R210: each R_TYPE instruction completes, in every state and on all operands, with the effect of R200 for its ALU
operation; no error is possible after the fetch, `shamt` is ignored and `rd = 0` discards the result only. The spec derives
R200 from its phases; the functs, the shift operands and the SLT value are its own decisions D7, D2, D3, D4. -/
def Obligations.RTypeEffect : Prop :=
  ∀ (s : State) (rd rs rt shamt : RegIdx),
    Executes (.add rd rs rt shamt) s (afterRType (.add rd rs rt shamt) .add rd rs rt s) ∧
    Executes (.sub rd rs rt shamt) s (afterRType (.sub rd rs rt shamt) .sub rd rs rt s) ∧
    Executes (.and rd rs rt shamt) s (afterRType (.and rd rs rt shamt) .and rd rs rt s) ∧
    Executes (.or rd rs rt shamt) s (afterRType (.or rd rs rt shamt) .or rd rs rt s) ∧
    Executes (.xor rd rs rt shamt) s (afterRType (.xor rd rs rt shamt) .xor rd rs rt s) ∧
    Executes (.sll rd rs rt shamt) s (afterRType (.sll rd rs rt shamt) .sll rd rs rt s) ∧
    Executes (.srl rd rs rt shamt) s (afterRType (.srl rd rs rt shamt) .srl rd rs rt s) ∧
    Executes (.sra rd rs rt shamt) s (afterRType (.sra rd rs rt shamt) .sra rd rs rt s) ∧
    Executes (.slt rd rs rt shamt) s (afterRType (.slt rd rs rt shamt) .slt rd rs rt s)

/-- What R220 leaves after an I_TYPE instruction. -/
def afterIType (i : Instr) (op : AluOp) (rt rs : RegIdx) (imm : BitVec 16) (s : State) : State :=
  { s with
    ir := encode s.cfg.isa i
    pc := s.pc + 4
    a := s.reg rs
    b := s.reg rt
    aluOut := aluResult op (s.reg rs) (imm.signExtend 32)
    flags := aluFlags op (s.reg rs) (imm.signExtend 32)
    x := RegFile.write s.x true rt (aluResult op (s.reg rs) (imm.signExtend 32)) }

/-- R220 to R225: each I_TYPE instruction completes, in every state and on all operands, with the effect of R220; the
immediate is sign-extended for all five (R73). The spec derives R220 from its phases; the instructions and opcodes are its own
decision D6. -/
def Obligations.ITypeEffect : Prop :=
  ∀ (s : State) (rt rs : RegIdx) (imm : BitVec 16),
    Executes (.addi rt rs imm) s (afterIType (.addi rt rs imm) .add rt rs imm s) ∧
    Executes (.slti rt rs imm) s (afterIType (.slti rt rs imm) .slt rt rs imm s) ∧
    Executes (.andi rt rs imm) s (afterIType (.andi rt rs imm) .and rt rs imm s) ∧
    Executes (.ori rt rs imm) s (afterIType (.ori rt rs imm) .or rt rs imm s) ∧
    Executes (.xori rt rs imm) s (afterIType (.xori rt rs imm) .xor rt rs imm s)

/-- The destination register's value after the instructions whose result R201 to R209 and R221 to R225 write as arithmetic, as
numbers; a write to register 0 is discarded. The shifts and the SLT value rest on the spec's own decisions D2, D3, D4. -/
def Obligations.ArithmeticResults : Prop :=
  ∀ (s t : State) (d rs rt shamt : RegIdx) (imm : BitVec 16), s.cfg.variant = .single →
    (exec (.add d rs rt shamt) s = .next t →
      (t.reg d).toNat = if d = 0 then 0 else ((s.reg rs).toNat + (s.reg rt).toNat) % 2 ^ 32) ∧
    (exec (.addi d rs imm) s = .next t →
      t.reg d = if d = 0 then 0 else trunc32 ((s.reg rs).toInt + imm.toInt)) ∧
    (exec (.sub d rs rt shamt) s = .next t →
      t.reg d = if d = 0 then 0 else trunc32 ((s.reg rs).toInt - (s.reg rt).toInt)) ∧
    (exec (.slt d rs rt shamt) s = .next t →
      t.reg d = if d ≠ 0 ∧ (s.reg rs).toInt < (s.reg rt).toInt then 1 else 0) ∧
    (exec (.slti d rs imm) s = .next t → t.reg d = if d ≠ 0 ∧ (s.reg rs).toInt < imm.toInt then 1 else 0) ∧
    (exec (.sll d rs rt shamt) s = .next t →
      (t.reg d).toNat = if d = 0 then 0 else (s.reg rs).toNat * 2 ^ ((s.reg rt).toNat % 32) % 2 ^ 32) ∧
    (exec (.srl d rs rt shamt) s = .next t →
      (t.reg d).toNat = if d = 0 then 0 else (s.reg rs).toNat / 2 ^ ((s.reg rt).toNat % 32)) ∧
    (exec (.sra d rs rt shamt) s = .next t →
      (t.reg d).toInt = if d = 0 then 0 else (s.reg rs).toInt / 2 ^ ((s.reg rt).toNat % 32))

/-- R230: the effective address of LW and SW. -/
def effectiveAddress (rs : RegIdx) (imm : BitVec 16) (s : State) : Word := s.reg rs + imm.signExtend 32

/-- What LW and SW leave after their address phase (R230 to R232): PC, IR, A, B, ALUOut and the flags of the address sum. -/
def afterAddress (i : Instr) (rt rs : RegIdx) (imm : BitVec 16) (s : State) : State :=
  { s with
    ir := encode s.cfg.isa i
    pc := s.pc + 4
    a := s.reg rs
    b := s.reg rt
    aluOut := effectiveAddress rs imm s
    flags := aluFlags .add (s.reg rs) (imm.signExtend 32) }

/-- R230, R231, LW: inside memory it completes, MDR and `x[rt]` receive the Word of the cell that contains the address, memory
is unchanged; outside it is OutOfRange(ea) with MDR, memory and every register unchanged and the writes before the access
kept, in the multi-cycle variant at the fourth phase (R266). The spec derives it from its phases; what an error leaves is its
own decision D23, and that the model ends the step in a fault that carries that state is log entry 4. -/
def Obligations.LoadEffect : Prop :=
  ∀ (s : State) (rt rs : RegIdx) (imm : BitVec 16),
    (∀ w, memRead s (effectiveAddress rs imm s) = some w →
      Executes (.lw rt rs imm) s
        { afterAddress (.lw rt rs imm) rt rs imm s with mdr := w, x := RegFile.write s.x true rt w }) ∧
    (s.cfg.memWords ≤ (effectiveAddress rs imm s).toNat / 4 →
      (s.cfg.variant = .single → exec (.lw rt rs imm) s =
        .fault (.outOfRange (.address (effectiveAddress rs imm s)) (afterAddress (.lw rt rs imm) rt rs imm s))) ∧
      (s.cfg.variant = .multi → s.fsm = .fetch → memRead s s.pc = some (encode s.cfg.isa (.lw rt rs imm)) →
        Host.Core.run core 4 s = .fault (.outOfRange (.address (effectiveAddress rs imm s))
          { afterAddress (.lw rt rs imm) rt rs imm s with fsm := .memory, cycles := s.cycles + 3 })))

/-- R230, R232, SW: inside memory it completes, the cell that contains the address receives `x[rt]` and every other cell reads
as before, no register and not MDR changes; outside it is OutOfRange(ea) with memory unchanged and the writes before the
access kept, in the multi-cycle variant at the fourth phase (R266). The spec derives it from its phases; what an error leaves
is its own decision D23, and that the model ends the step in a fault that carries that state is log entry 4. -/
def Obligations.StoreEffect : Prop :=
  ∀ (s : State) (rt rs : RegIdx) (imm : BitVec 16), Memory.wf s.mem = true →
    ((effectiveAddress rs imm s).toNat / 4 < s.cfg.memWords →
      ∃ m, Executes (.sw rt rs imm) s { afterAddress (.sw rt rs imm) rt rs imm s with mem := m } ∧
        Memory.read m ((effectiveAddress rs imm s).toNat / 4) = s.reg rt ∧
        ∀ k, k ≠ (effectiveAddress rs imm s).toNat / 4 → Memory.read m k = Memory.read s.mem k) ∧
    (s.cfg.memWords ≤ (effectiveAddress rs imm s).toNat / 4 →
      (s.cfg.variant = .single → exec (.sw rt rs imm) s =
        .fault (.outOfRange (.address (effectiveAddress rs imm s)) (afterAddress (.sw rt rs imm) rt rs imm s))) ∧
      (s.cfg.variant = .multi → s.fsm = .fetch → memRead s s.pc = some (encode s.cfg.isa (.sw rt rs imm)) →
        Host.Core.run core 4 s = .fault (.outOfRange (.address (effectiveAddress rs imm s))
          { afterAddress (.sw rt rs imm) rt rs imm s with fsm := .memory, cycles := s.cycles + 3 })))

/-- What R240 leaves after a BRANCH whose PC ends at `pc'`. -/
def afterBranch (i : Instr) (rs rt : RegIdx) (pc' : Word) (s : State) : State :=
  { s with
    ir := encode s.cfg.isa i
    pc := pc'
    a := s.reg rs
    b := s.reg rt
    aluOut := s.reg rs - s.reg rt
    flags := aluFlags .sub (s.reg rs) (s.reg rt) }

/-- R240 to R243: BEQ and BNE complete in every state; taken exactly when the two registers are equal (BEQ) or differ (BNE),
to `addr(I) + 4 + 4 * offset`, else to `addr(I) + 4`; no register, no memory cell and not MDR changes. The base of the target
and the branch not taken are the spec's own decisions D12, D16, the zero flag used its D38. -/
def Obligations.BranchEffect : Prop :=
  ∀ (s : State) (rs rt : RegIdx) (imm : BitVec 16),
    Executes (.beq rs rt imm) s
      (afterBranch (.beq rs rt imm) rs rt
        (if s.reg rs = s.reg rt then s.pc + 4 + trunc32 (4 * imm.toInt) else s.pc + 4) s) ∧
    Executes (.bne rs rt imm) s
      (afterBranch (.bne rs rt imm) rs rt
        (if s.reg rs = s.reg rt then s.pc + 4 else s.pc + 4 + trunc32 (4 * imm.toInt)) s)

/-- What the free read and the default ALU operation A + B leave after a J or a HALT with the 26 low bits `low`, PC ending at
`pc'` (R245, R248). -/
def afterDefaultAlu (i : Instr) (low : BitVec 26) (pc' : Word) (s : State) : State :=
  { s with
    ir := encode s.cfg.isa i
    pc := pc'
    a := s.reg (low.extractLsb' 21 5)
    b := s.reg (low.extractLsb' 16 5)
    aluOut := s.reg (low.extractLsb' 21 5) + s.reg (low.extractLsb' 16 5)
    flags := aluFlags .add (s.reg (low.extractLsb' 21 5)) (s.reg (low.extractLsb' 16 5)) }

/-- R244: the jump target: the 26-bit field shifted left by two under the upper four bits of `addr(I) + 4`, as a number. -/
def jumpTo (address : BitVec 26) (s : State) : Word :=
  BitVec.ofNat 32 ((s.pc + 4).toNat / 2 ^ 28 * 2 ^ 28 + address.toNat * 4)

/-- R244, R245, J: completes in every state; A, B, ALUOut and the flags follow the upper bits of the `address` field. The
assembly of the target and the ALU run are the spec's own decisions D13, D17. -/
def Obligations.JumpEffect : Prop :=
  ∀ (s : State) (address : BitVec 26),
    Executes (.j address) s (afterDefaultAlu (.j address) address (jumpTo address s) s)

/-- What R246 leaves after a JAL, register 31 apart. -/
def afterJal (address : BitVec 26) (s : State) : State :=
  { s with
    ir := encode s.cfg.isa (.jal address)
    pc := jumpTo address s
    a := s.reg (address.extractLsb' 21 5)
    b := s.reg (address.extractLsb' 16 5)
    aluOut := s.pc + 8
    flags := aluFlags .add (s.pc + 4) 4 }

/-- R244, R246, JAL in both variants: single-cycle it completes in every state and writes `addr(I) + 8` to register 31;
multi-cycle it takes three phases and leaves every register as it was. The link value, the multi-cycle path and the target are
the spec's own decisions D14, D15, D13. -/
def Obligations.JalEffect : Prop :=
  ∀ (s : State) (address : BitVec 26),
    (s.cfg.variant = .single →
      exec (.jal address) s = .next { afterJal address s with x := RegFile.write s.x true 31 (s.pc + 8) }) ∧
    (s.cfg.variant = .multi → s.fsm = .fetch → memRead s s.pc = some (encode s.cfg.isa (.jal address)) →
      Host.Core.run core 3 s = .next { afterJal address s with cycles := s.cycles + 3 })

/-- R248, R249, R163, HALT in both variants: single-cycle it completes with PC unchanged; multi-cycle it takes three phases
and leaves PC at the word after it and the FSM in FETCH. In both the flags are those of A + B. The encoding of HALT and the A
+ B are the spec's own decisions D8, D17. -/
def Obligations.HaltEffect : Prop :=
  ∀ (s : State) (ignored : BitVec 26),
    (s.cfg.variant = .single →
      exec (.halt ignored) s = .next (afterDefaultAlu (.halt ignored) ignored s.pc s)) ∧
    (s.cfg.variant = .multi → s.fsm = .fetch → memRead s s.pc = some (encode s.cfg.isa (.halt ignored)) →
      Host.Core.run core 3 s =
        .next { afterDefaultAlu (.halt ignored) ignored (s.pc + 4) s with cycles := s.cycles + 3 })

/-! ## One clock phase, multi-cycle (42, 43) -/

/-- R154, R155, R162: in the multi-cycle variant the FETCH and DECODE phases complete for every word, illegal ones too, and
write exactly IR, PC and the flags of PC + 4 (FETCH), and A and B (DECODE). That an illegal word passes them is the spec's own
decision D24. -/
def Obligations.McFetchAndDecodePhases : Prop :=
  ∀ (s : State) (w : Word), s.cfg.variant = .multi →
    (s.fsm = .fetch → memRead s s.pc = some w →
      step s = .next { s with ir := w, pc := s.pc + 4, flags := aluFlags .add s.pc 4, fsm := .decode, cycles := s.cycles + 1 }) ∧
    (s.fsm = .decode →
      step s = .next { s with a := s.reg (rsOf s.ir), b := s.reg (rtOf s.ir), fsm := .execute, cycles := s.cycles + 1 })

/-- R156 to R158, R177, R178: the phases after DECODE, each from any state in it: EXECUTE asserts no memory gate and no
register write for any class and completes for every instruction; MEMORY loads MDR or stores B; WRITEBACK writes `rd`, `rt`,
or 31 for the JAL arm no run reaches. The unreachable arm is R158's. -/
def Obligations.McLatePhases : Prop :=
  ∀ (s : State) (i : Instr), s.cfg.variant = .multi → decode s.cfg.isa s.ir = .ok i →
    (s.fsm = .execute → ∃ t, step s = .next t ∧ t.x = s.x ∧ t.mem = s.mem ∧ t.mdr = s.mdr ∧ t.ir = s.ir ∧
      t.a = s.a ∧ t.b = s.b) ∧
    (s.fsm = .memory → classOf i = .load → ∀ w, memRead s s.aluOut = some w →
      step s = .next { s with mdr := w, fsm := .writeback, cycles := s.cycles + 1 }) ∧
    (s.fsm = .memory → classOf i = .store → ∀ t, memWrite s s.aluOut s.b = some t →
      step s = .next { t with fsm := .fetch, cycles := s.cycles + 1 }) ∧
    (s.fsm = .writeback → ∀ (d : RegIdx) (v : Word),
      ((∃ op, classOf i = .rType op) ∧ d = rdOf s.ir ∧ v = s.aluOut) ∨
      ((∃ op, classOf i = .iType op) ∧ d = rtOf s.ir ∧ v = s.aluOut) ∨
      (classOf i = .load ∧ d = rtOf s.ir ∧ v = s.mdr) ∨ (classOf i = .jump true ∧ d = 31 ∧ v = s.aluOut) →
      step s = .next { s with x := RegFile.write s.x true d v, fsm := .fetch, cycles := s.cycles + 1 })

/-- R182: the two cases in which the variants differ: JAL writes no register in the multi-cycle variant, and HALT is passed.
`t` is what the single-cycle step leaves. -/
def variantDifference (i : Instr) (s t : State) : State :=
  match i with
  | .jal _ => { t with x := s.x }
  | .halt _ => { t with pc := s.pc + 4 }
  | .add _ _ _ _ | .sub _ _ _ _ | .and _ _ _ _ | .or _ _ _ _ | .xor _ _ _ _ | .sll _ _ _ _ | .srl _ _ _ _ | .sra _ _ _ _
  | .slt _ _ _ _ | .addi _ _ _ | .slti _ _ _ | .andi _ _ _ | .ori _ _ _ | .xori _ _ _ | .lw _ _ _ | .sw _ _ _ | .beq _ _ _
  | .bne _ _ _ | .j _ => t

/-- R182: agreement of the variants. From FETCH, on any word that is an instruction, if the single-cycle machine's step on the
same contents completes, then the multi-cycle machine's 3 to 5 steps complete and leave all of x, Mem, PC, IR, A, B, ALUOut,
MDR, Z, N, V equal, but for the two differences of JAL and HALT, the FSM in FETCH, and `cycles` advanced by the number of
phases. The spec derives it; the JAL difference is its own decision D15. -/
def Obligations.McInstructionEqualsScStep : Prop :=
  ∀ (s t : State) (w : Word) (i : Instr), s.cfg.variant = .multi → s.fsm = .fetch →
    memRead s s.pc = some w → decode s.cfg.isa w = .ok i →
    step { s with cfg := { s.cfg with variant := .single } } = .next t →
    Host.Core.run core (phaseCount (classOf i)) s =
      .next { variantDifference i s t with cfg := s.cfg, fsm := .fetch, cycles := s.cycles + phaseCount (classOf i) }

/-! ## Errors (60_exceptions.md) -/

/-- R264, R266, R269: a fetch outside memory is OutOfRange(PC) and changes nothing, in either variant, whatever else the state
holds. The error order is the spec's own decision D34; the fault that carries the state is log entry 4. -/
def Obligations.FetchOutsideMemory : Prop :=
  ∀ s : State, s.cfg.variant = .single ∨ s.fsm = .fetch → s.cfg.memWords ≤ s.pc.toNat / 4 →
    step s = .fault (.outOfRange (.address s.pc) s)

/-- R265, R266: when DecodeError is raised and what it leaves: single-cycle, in the step that fetches the word, with IR
latched and nothing else changed; multi-cycle, in the step taken in EXECUTE, with nothing changed, the FETCH and DECODE steps
of the same word having completed. The moment and the unknown funct are the spec's own decisions D24, D9; the fault that
carries the state is log entry 4. -/
def Obligations.IllegalWordRaisesDecodeError : Prop :=
  ∀ (s : State) (w : Word), (∃ e, classify s.cfg.isa w = .error e) →
    (s.cfg.variant = .single → memRead s s.pc = some w → step s = .fault (.decodeError w { s with ir := w })) ∧
    (s.cfg.variant = .multi → s.fsm = .execute → s.ir = w → step s = .fault (.decodeError w s)) ∧
    (s.cfg.variant = .multi → s.fsm = .fetch → memRead s s.pc = some w →
      Host.Core.run core 3 s = .fault (.decodeError w
        { s with
          ir := w
          pc := s.pc + 4
          a := s.reg (rsOf w)
          b := s.reg (rtOf w)
          flags := aluFlags .add s.pc 4
          fsm := .execute
          cycles := s.cycles + 2 }))

/-- R181, R266: "a failing `mc_step` changes nothing at all". The state a fault carries is log entry 4's form. -/
def Obligations.McFailingStepChangesNothing : Prop :=
  ∀ (s : State) (f : Fault), s.cfg.variant = .multi → step s = .fault f → f.left = s

/-- R264, R266: multi-cycle LW and SW outside memory: the step taken in MEMORY is OutOfRange(ALUOut) and changes nothing. What
an error leaves is the spec's own decision D23; the fault that carries the state is log entry 4. -/
def Obligations.McDataAccessOutsideMemory : Prop :=
  ∀ (s : State) (i : Instr), s.cfg.variant = .multi → s.fsm = .memory → decode s.cfg.isa s.ir = .ok i →
    classOf i = .load ∨ classOf i = .store → s.cfg.memWords ≤ s.aluOut.toNat / 4 →
    step s = .fault (.outOfRange (.address s.aluOut) s)

/-- R263, R264: the only errors a step reports are OutOfRange on a memory address that is outside memory, and DecodeError on a
word that is no instruction; never InvalidOperation and never a multiplexer's OutOfRange. The information an error carries is
the spec's own decision D37. -/
def Obligations.StepErrorsAreTwo : Prop :=
  ∀ (s : State) (f : Fault), step s = .fault f →
    (∃ addr, f = .outOfRange (.address addr) f.left ∧ s.cfg.memWords ≤ addr.toNat / 4) ∨
    (∃ w e, f = .decodeError w f.left ∧ classify s.cfg.isa w = .error e)

/-- R268: stepping again after an error without changing anything: in the multi-cycle variant, and in the single-cycle variant
after an OutOfRange at fetch or a DecodeError, the same error is reported for ever. The spec derives it; stepping on from the
state a fault carries is log entry 4's form. -/
def Obligations.SameErrorAgain : Prop :=
  ∀ (s : State) (f : Fault), step s = .fault f →
    (s.cfg.variant = .multi ∨ memRead s s.pc = none ∨ (∃ w, f = .decodeError w f.left)) →
    ∀ n, Host.Core.run core (n + 1) f.left = .fault f

/-- R268: in the single-cycle variant after an OutOfRange in LW or SW, PC is `a + 4` and the access is simply lost: memory,
MDR and every register are as before the step, so the next step works on the next word. The spec derives it; stepping on from
the state a fault carries is log entry 4's form. -/
def Obligations.ScDataErrorIsSkipped : Prop :=
  ∀ (s : State) (f : Fault) (w : Word), s.cfg.variant = .single → step s = .fault f → memRead s s.pc = some w →
    (∃ c, classify s.cfg.isa w = .ok c) →
    f.left.pc = s.pc + 4 ∧ f.left.ir = w ∧ f.left.mem = s.mem ∧ f.left.mdr = s.mdr ∧ f.left.x = s.x ∧
    wordInForce f.left = memRead s (s.pc + 4)

/-! ## Whole-machine rules -/

/-- Power-on leaves a legal state, for every legal configuration (R20, R44, R293). The invariant's clauses on `cfg`, on the
canonical memory and on the single-cycle `fsm` and `cycles` are the model's choices, log entries 1, 3, 5. -/
def Obligations.PowerOnMeetsInv : Prop := ∀ c : Config, c.valid = true → Inv (State.powerOn c)

/-- R37, R50, R161 and log entry 3: every step keeps the invariant: parameters legal and memory canonical and inside its size,
the hard-wired cell untouched, the FSM in a pair it can be in, and at rest in the single-cycle variant. Log entries 1, 3, 5
are the model's choices. -/
def Obligations.StepKeepsInv : Prop := ∀ s t : State, Inv s → step s = .next t → Inv t

/-- R161: from a state with the invariant no step is refused, however far the run goes: the pairs without a vector never
occur. That such a pair is refused is the spec's own decision D32 (log entry 7). -/
def Obligations.NoReachableRefusal : Prop :=
  ∀ (s : State) (n : Nat) (q : Refusal), Inv s → Host.Core.run core n s ≠ .refused q

/-- R161, D32: the converse: a step is refused only in the multi-cycle variant, in MEMORY or WRITEBACK, on a class for which
R152 has no vector there; the JAL arm of WRITEBACK runs. That such a pair is refused is the spec's own decision (log entry 7).
-/
def Obligations.RefusedOnlyWithoutVector : Prop :=
  ∀ (s : State) (q : Refusal), step s = .refused q ↔
    s.cfg.variant = .multi ∧ q = .unreachablePhase s.fsm ∧ (s.fsm = .memory ∨ s.fsm = .writeback) ∧
      ∃ c, classify s.cfg.isa s.ir = .ok c ∧ mcControl s.cfg s.fsm c = none

/-- R29: starting from a PC that is a multiple of 4, every step keeps it one. The spec derives it. -/
def Obligations.PcStaysAligned : Prop :=
  ∀ s t : State, s.pc.toNat % 4 = 0 → step s = .next t → t.pc.toNat % 4 = 0

/-- R25: the register an instruction may write. -/
def destinationOf (i : Instr) : Option RegIdx :=
  match i with
  | .add rd _ _ _ | .sub rd _ _ _ | .and rd _ _ _ | .or rd _ _ _ | .xor rd _ _ _ | .sll rd _ _ _ | .srl rd _ _ _
  | .sra rd _ _ _ | .slt rd _ _ _ => some rd
  | .addi rt _ _ | .slti rt _ _ | .andi rt _ _ | .ori rt _ _ | .xori rt _ _ | .lw rt _ _ => some rt
  | .jal _ => some 31
  | .sw _ _ _ | .beq _ _ _ | .bne _ _ _ | .j _ | .halt _ => none

/-- R25: a step changes a register only if the word in force is an instruction whose destination it is, and in the multi-cycle
variant only in WRITEBACK; the parameters never change (R6). The spec derives R25; that the state carries the parameters is
log entry 1. -/
def Obligations.RegistersChangeOnlyByDestination : Prop :=
  ∀ s t : State, step s = .next t → t.cfg = s.cfg ∧
    ∀ r : RegIdx, t.reg r ≠ s.reg r →
      r ≠ 0 ∧ (s.cfg.variant = .multi → s.fsm = .writeback) ∧
      ∃ w i, wordInForce s = some w ∧ decode s.cfg.isa w = .ok i ∧ destinationOf i = some r

/-- R66: memory changes only by SW, only in the cell that contains its effective address, which receives `x[rt]`
(single-cycle) or B (multi-cycle, in state MEMORY, at ALUOut). It rests on the model's memory, log entry 3. -/
def Obligations.MemoryChangesOnlyBySw : Prop :=
  ∀ (s t : State) (k : Nat), Memory.wf s.mem = true → step s = .next t →
    Memory.read t.mem k ≠ Memory.read s.mem k →
    ∃ w rt rs imm, wordInForce s = some w ∧ decode s.cfg.isa w = .ok (.sw rt rs imm) ∧
      ((s.cfg.variant = .single ∧ k = (effectiveAddress rs imm s).toNat / 4 ∧ Memory.read t.mem k = s.reg rt) ∨
       (s.cfg.variant = .multi ∧ s.fsm = .memory ∧ k = s.aluOut.toNat / 4 ∧ Memory.read t.mem k = s.b))

/-- R33, R34, R35, R32, R28: who writes the holding registers, the flags and PC: MDR only LW (multi-cycle: in MEMORY); and in the
multi-cycle variant IR only FETCH, A and B only DECODE, ALUOut only EXECUTE, the flags only FETCH and EXECUTE, PC only FETCH and
EXECUTE. The spec derives R28, R32 and the clause of R35 on the fetch phase. -/
def Obligations.HoldingRegistersFrame : Prop :=
  ∀ s t : State, step s = .next t →
    (t.mdr ≠ s.mdr → (s.cfg.variant = .multi → s.fsm = .memory) ∧
      ∃ w rt rs imm, wordInForce s = some w ∧ decode s.cfg.isa w = .ok (.lw rt rs imm)) ∧
    (s.cfg.variant = .multi →
      (t.ir ≠ s.ir → s.fsm = .fetch) ∧ (t.a ≠ s.a ∨ t.b ≠ s.b → s.fsm = .decode) ∧
      (t.aluOut ≠ s.aluOut → s.fsm = .execute) ∧ (t.flags ≠ s.flags → s.fsm = .fetch ∨ s.fsm = .execute) ∧
      (t.pc ≠ s.pc → s.fsm = .fetch ∨ s.fsm = .execute))

/-- 46_insn_load_store.md R233: a STORE followed by a LOAD from the same address round-trips the exact Word written, also
through an address that differs only in bits 1:0. The spec derives it; stated for the single-cycle variant, and
McInstructionEqualsScStep carries it over. -/
def Obligations.StoreThenLoadRoundTrip : Prop :=
  ∀ (s t : State) (rt ru rs rs' : RegIdx) (imm imm' : BitVec 16), s.cfg.variant = .single → Memory.wf s.mem = true →
    exec (.sw rt rs imm) s = .next t → ru ≠ 0 →
    (effectiveAddress rs' imm' t).toNat / 4 = (effectiveAddress rs imm s).toNat / 4 →
    ∃ u, exec (.lw ru rs' imm') t = .next u ∧ u.reg ru = s.reg rt ∧ u.mdr = s.reg rt

/-- R63: a store is seen by the next fetch of that cell, with nothing to do in between: self-modifying code works. The spec
derives it; stated for the single-cycle variant, and McInstructionEqualsScStep carries it over. -/
def Obligations.StoreSeenByNextFetch : Prop :=
  ∀ (s t : State) (rt rs : RegIdx) (imm : BitVec 16), s.cfg.variant = .single → Memory.wf s.mem = true →
    exec (.sw rt rs imm) s = .next t → (effectiveAddress rs imm s).toNat / 4 = t.pc.toNat / 4 →
    wordInForce t = some (s.reg rt)

/-! ## Reset, the host and the end of a run (70_reset_and_hazards.md) -/

/-- R44, R290 to R292: the state after `reset()`: every register, holding register, flag and `cycles` 0, the FSM in FETCH, the
memory as it was; a second `reset()` changes nothing. The flags, `cycles` and memory after reset are the spec's own decisions
D19, D20. -/
def Obligations.ResetState : Prop :=
  ∀ (s : State), (∀ r : RegIdx, (hostReset s).reg r = 0) ∧ (hostReset s).pc = 0 ∧ (hostReset s).ir = 0 ∧
    (hostReset s).a = 0 ∧ (hostReset s).b = 0 ∧ (hostReset s).aluOut = 0 ∧ (hostReset s).mdr = 0 ∧
    (hostReset s).flags = { z := false, n := false, v := false } ∧ (hostReset s).fsm = .fetch ∧ (hostReset s).cycles = 0 ∧
    (hostReset s).mem = s.mem ∧ (hostReset s).cfg = s.cfg ∧ hostReset (hostReset s) = hostReset s

/-- R302, R303: what `load_words` stores, `dump` returns, truncated to Words, as long as the image does not go round the
address space; it touches nothing but memory. The exact behaviour of both is the spec's own decision D35. -/
def Obligations.LoadThenDump : Prop :=
  ∀ (ws : List Int) (start : Word) (s t : State), Memory.wf s.mem = true → ws.length ≤ 2 ^ 30 →
    loadWords start ws s = .next t → dump start ws.length t = .ok (ws.map trunc32) ∧ t = { s with mem := t.mem }

/-- R302: a cell outside memory makes `load_words` report OutOfRange at the first such cell; the words before it have been
written and stay written, and nothing but memory has changed. The exact behaviour is the spec's own decision D35. -/
def Obligations.LoadWordsStopsAtTheFirstBadCell : Prop :=
  ∀ (before : List Int) (v : Int) (after : List Int) (start : Word) (s t : State),
    loadWords start before s = .next t →
    s.cfg.memWords ≤ (start + BitVec.ofNat 32 (4 * before.length)).toNat / 4 →
    loadWords start (before ++ v :: after) s =
      .fault (.outOfRange (.address (start + BitVec.ofNat 32 (4 * before.length))) t) ∧ t = { s with mem := t.mem }

/-- R300: `run(N)` takes up to N steps and stops at the first error: its outcome is that of N steps, it completes all N
exactly when it returns ok, and otherwise the steps it counts as completed did complete and the very next one gives the
outcome it returns. The early stop is the spec's own decision D35. -/
def Obligations.RunReportsStepsCompleted : Prop :=
  ∀ (n : Nat) (s : State), (runSteps n s).1 = Host.Core.run core n s ∧
    ((∃ t, (runSteps n s).1 = .next t) ↔ (runSteps n s).2 = n) ∧ (runSteps n s).2 ≤ n ∧
    ∃ u, Host.Core.run core (runSteps n s).2 s = .next u ∧ ((runSteps n s).2 < n → step u = (runSteps n s).1)

/-- R301: `read_reg(i)` gives `x[i]` for the indices 0 to 31, 0 for index 0, and OutOfRange(i) above 31; `read_regs()` is the
32 of them in order. R26: a Register's gated write. The accessor names are the spec's own decision D35. -/
def Obligations.RegisterAccessors : Prop :=
  ∀ s : State,
    (∀ r : RegIdx, readReg r.toNat s = .ok (s.reg r) ∧ (readRegs s)[r.toNat]? = some (s.reg r)) ∧
    readReg 0 s = .ok 0 ∧ (∀ i : Nat, 31 < i → readReg i s = .error (.register i)) ∧ (readRegs s).length = 32 ∧
    ∀ new old : Word, gated true new old = new ∧ gated false new old = old

/-- R248, R296, R297: the single-cycle machine stays on a HALT: after one step on it `at_halt` holds, and any number of
further steps gives the same state. The end of a run is the spec's own decision D25. -/
def Obligations.HaltIsAFixedPoint : Prop :=
  ∀ (s t : State) (ignored : BitVec 26), s.cfg.variant = .single → memRead s s.pc = some (encode s.cfg.isa (.halt ignored)) →
    step s = .next t → atHalt t = true ∧ t.pc = s.pc ∧ t.x = s.x ∧ t.mem = s.mem ∧
    ∀ n, Host.Core.run core n t = .next t

/-- R296: in the multi-cycle variant `at_halt` holds right after the third phase of a HALT, with PC at the word after it, and
not after the first or second. The end of a run is the spec's own decision D25. -/
def Obligations.McHaltIsSeenInFetch : Prop :=
  ∀ (s t : State) (ignored : BitVec 26), s.cfg.variant = .multi → s.fsm = .fetch →
    memRead s s.pc = some (encode s.cfg.isa (.halt ignored)) → Host.Core.run core 3 s = .next t →
    HaltsIn 3 s t ∧ t.pc = s.pc + 4 ∧ t.x = s.x ∧ t.mem = s.mem

/-! ## The numbering tables (00_scope.md R6) -/

/-- 40_alu.md R100, R124: the spec's own numbers: the ALU operations are 0 to 8 in the order of the list and the inputs of each
multiplexer are numbered from 0 in the order of the table, `reg_dst = 2` the constant 31. The spec's own decisions D1, D5 (log
entry 2). -/
def Obligations.StandardNumbers : Prop :=
  [AluOp.add, .sub, .and, .or, .xor, .sll, .srl, .sra, .slt].map (aluCode .standard) = [0, 1, 2, 3, 4, 5, 6, 7, 8] ∧
  [SourceA.regA, .pc].map (srcACode .standard) = [0, 1] ∧
  [SourceB.regB, .imm, .four].map (srcBCode .standard) = [0, 1, 2] ∧
  [Destination.rt, .rd, .link].map (dstCode .standard) = [0, 1, 2] ∧
  [WriteData.aluOut, .mdr].map (dataCode .standard) = [0, 1] ∧
  [PcSource.sequential, .branch, .jump].map (pcCode .standard) = [0, 1, 2] ∧
  ∀ (s : State) (f : Fields), s.cfg.selCode = .standard →
    aluSourceA 0 s = .ok s.a ∧ aluSourceA 1 s = .ok s.pc ∧
    aluSourceB 0 f s = .ok s.b ∧ aluSourceB 1 f s = .ok f.imm ∧ aluSourceB 2 f s = .ok 4 ∧
    destination .standard 0 f = .ok f.rt ∧ destination .standard 1 f = .ok f.rd ∧ destination .standard 2 f = .ok 31 ∧
    writeData 0 s = .ok s.aluOut ∧ writeData 1 s = .ok s.mdr

/-- 41_control_single_cycle.md R132, R139: the eight rows of the single-cycle table with the spec's own numbers, all eleven fields, a
BRANCH on either side of its condition. The numbers are the spec's own decisions D1, D5, D17 (log entry 2). -/
def Obligations.ScVectors : Prop :=
  ∀ (cfg : Config) (zero : Bool) (op : AluOp), cfg.aluOpCode = .standard → cfg.selCode = .standard →
    scControl cfg (.rType op) zero =
      { pcWrite := true, pcSource := 0, memRead := false, memWrite := false, regWrite := true, regDst := 1, aluSrcA := 0,
        aluSrcB := 0, aluOp := aluCode .standard op, memToReg := 0, irWrite := true } ∧
    scControl cfg (.iType op) zero =
      { pcWrite := true, pcSource := 0, memRead := false, memWrite := false, regWrite := true, regDst := 0, aluSrcA := 0,
        aluSrcB := 1, aluOp := aluCode .standard op, memToReg := 0, irWrite := true } ∧
    scControl cfg .load zero =
      { pcWrite := true, pcSource := 0, memRead := true, memWrite := false, regWrite := true, regDst := 0, aluSrcA := 0,
        aluSrcB := 1, aluOp := 0, memToReg := 1, irWrite := true } ∧
    scControl cfg .store zero =
      { pcWrite := true, pcSource := 0, memRead := false, memWrite := true, regWrite := false, regDst := 0, aluSrcA := 0,
        aluSrcB := 1, aluOp := 0, memToReg := 0, irWrite := true } ∧
    scControl cfg (.branch .equal) zero =
      { pcWrite := true, pcSource := if zero then 1 else 0, memRead := false, memWrite := false, regWrite := false, regDst := 0,
        aluSrcA := 0, aluSrcB := 0, aluOp := 1, memToReg := 0, irWrite := true } ∧
    scControl cfg (.branch .notEqual) zero =
      { pcWrite := true, pcSource := if zero then 0 else 1, memRead := false, memWrite := false, regWrite := false, regDst := 0,
        aluSrcA := 0, aluSrcB := 0, aluOp := 1, memToReg := 0, irWrite := true } ∧
    scControl cfg (.jump false) zero =
      { pcWrite := true, pcSource := 2, memRead := false, memWrite := false, regWrite := false, regDst := 0, aluSrcA := 0,
        aluSrcB := 0, aluOp := 0, memToReg := 0, irWrite := true } ∧
    scControl cfg (.jump true) zero =
      { pcWrite := true, pcSource := 2, memRead := false, memWrite := false, regWrite := true, regDst := 2, aluSrcA := 1,
        aluSrcB := 2, aluOp := 0, memToReg := 0, irWrite := true } ∧
    scControl cfg .halt zero =
      { pcWrite := false, pcSource := 0, memRead := false, memWrite := false, regWrite := false, regDst := 0, aluSrcA := 0,
        aluSrcB := 0, aluOp := 0, memToReg := 0, irWrite := true }

/-- The same machine contents under another ALU_OP_CODE and SEL_CODE. -/
def renumber (ops : AluOpCode) (sel : SelCode) (s : State) : State :=
  { s with cfg := { s.cfg with aluOpCode := ops, selCode := sel } }

/-- 92_eei_decisions.md D1, D5: "no register, memory or PC value depends on the numbering": under any other ALU_OP_CODE and SEL_CODE
a step completes, fails or is refused exactly as before, with the same contents afterwards and an error of the same kind. It
rests on the default vector of log entry 16. -/
def Obligations.NumberingDoesNotMatter : Prop :=
  ∀ (s : State) (ops : AluOpCode) (sel : SelCode),
    (∀ t, step s = .next t → step (renumber ops sel s) = .next (renumber ops sel t)) ∧
    (∀ f, step s = .fault f →
      ∃ g, step (renumber ops sel s) = .fault g ∧ g.left = renumber ops sel f.left ∧ g.wireCode = f.wireCode) ∧
    (∀ q, step s = .refused q → step (renumber ops sel s) = .refused q)
end

