-- ==== Sys2Proof/Laws/Tables.lean ====
section
/-! SUPPORT. Laws/Tables.lean: the numbering tables (00_scope.md R6): a name's code leads back to the name, in the ALU
(40_alu.md R100), in each multiplexer (R124) and in ISA_TABLE (30_encoding.md R80, R81). Later lemmas use these and never look
into a table. -/

namespace Sys2Proof.Laws

open Sys2Proof.Machine

/-! ## Numberings -/

section
variable {α : Type} [DecidableEq α] {all : List α} (t : Numbering all) {a : α}

omit [DecidableEq α] in
theorem numbering_length : t.names.length = all.length := t.perm.length_eq

theorem numbering_name_code (h : a ∈ all) : t.name (t.code a) = some a :=
  List.getElem?_idxOf (t.perm.mem_iff.mpr h)

theorem numbering_code_lt (h : a ∈ all) : t.code a < all.length :=
  numbering_length t ▸ List.idxOf_lt_length_of_mem (t.perm.mem_iff.mpr h)

omit [DecidableEq α] in
/-- R112, R122: the codes end where the names do. -/
theorem numbering_name_eq_none {k : Nat} : t.name k = none ↔ all.length ≤ k := by
  simp [Numbering.name, numbering_length]

/-- R123: a multiplexer wired by a numbering gives, on the code of an input, that input. -/
theorem wiredMux_code {β : Type} (value : α → β) (h : a ∈ all) : wiredMux t value (t.code a) = .ok (value a) := by
  have hn : t.names[t.code a]? = some a := numbering_name_code t h
  have hlt := numbering_code_lt t h
  rw [wiredMux, mux, if_neg (by simp [numbering_length]), if_neg (by omega), List.getElem?_map, hn]
  rfl

end

theorem mem_aluOp (x : AluOp) : x ∈ AluOp.all := by cases x <;> decide
theorem mem_major (x : Major) : x ∈ Major.all := by cases x <;> decide
theorem mem_sourceA (x : SourceA) : x ∈ SourceA.all := by cases x <;> decide
theorem mem_sourceB (x : SourceB) : x ∈ SourceB.all := by cases x <;> decide
theorem mem_destination (x : Destination) : x ∈ Destination.all := by cases x <;> decide
theorem mem_writeData (x : WriteData) : x ∈ WriteData.all := by cases x <;> decide
theorem mem_pcSource (x : PcSource) : x ∈ PcSource.all := by cases x <;> decide

/-! ## Codes on their wires -/

/-- A code that fits its wire is read back whole. -/
theorem toNat_wire {n k m : Nat} (h : k < m) (hm : m ≤ 2 ^ n) : (BitVec.ofNat n k).toNat = k := by
  rw [BitVec.toNat_ofNat, Nat.mod_eq_of_lt (Nat.lt_of_lt_of_le h hm)]

@[simp] theorem aluCode_toNat (t : AluOpCode) (op : AluOp) : (aluCode t op).toNat = t.ops.code op :=
  toNat_wire (numbering_code_lt _ (mem_aluOp op)) (by decide)
@[simp] theorem srcACode_toNat (t : SelCode) (x : SourceA) : (srcACode t x).toNat = t.aluSrcA.code x :=
  toNat_wire (numbering_code_lt _ (mem_sourceA x)) (by decide)
@[simp] theorem srcBCode_toNat (t : SelCode) (x : SourceB) : (srcBCode t x).toNat = t.aluSrcB.code x :=
  toNat_wire (numbering_code_lt _ (mem_sourceB x)) (by decide)
@[simp] theorem dstCode_toNat (t : SelCode) (x : Destination) : (dstCode t x).toNat = t.regDst.code x :=
  toNat_wire (numbering_code_lt _ (mem_destination x)) (by decide)
@[simp] theorem dataCode_toNat (t : SelCode) (x : WriteData) : (dataCode t x).toNat = t.memToReg.code x :=
  toNat_wire (numbering_code_lt _ (mem_writeData x)) (by decide)
@[simp] theorem pcCode_toNat (t : SelCode) (x : PcSource) : (pcCode t x).toNat = t.pcSource.code x :=
  toNat_wire (numbering_code_lt _ (mem_pcSource x)) (by decide)

/-! ## What each code selects -/

@[simp] theorem aluOpOfCode_aluCode (t : AluOpCode) (op : AluOp) : aluOpOfCode t (aluCode t op) = some op := by
  rw [aluOpOfCode, aluCode_toNat]
  exact numbering_name_code _ (mem_aluOp op)

@[simp] theorem aluSourceA_regA (s : State) : aluSourceA (srcACode s.cfg.selCode .regA) s = .ok s.a := by
  rw [aluSourceA, srcACode_toNat, wiredMux_code _ _ (mem_sourceA _)]
@[simp] theorem aluSourceA_pc (s : State) : aluSourceA (srcACode s.cfg.selCode .pc) s = .ok s.pc := by
  rw [aluSourceA, srcACode_toNat, wiredMux_code _ _ (mem_sourceA _)]

@[simp] theorem aluSourceB_regB (f : Fields) (s : State) : aluSourceB (srcBCode s.cfg.selCode .regB) f s = .ok s.b := by
  rw [aluSourceB, srcBCode_toNat, wiredMux_code _ _ (mem_sourceB _)]
@[simp] theorem aluSourceB_imm (f : Fields) (s : State) : aluSourceB (srcBCode s.cfg.selCode .imm) f s = .ok f.imm := by
  rw [aluSourceB, srcBCode_toNat, wiredMux_code _ _ (mem_sourceB _)]
@[simp] theorem aluSourceB_four (f : Fields) (s : State) : aluSourceB (srcBCode s.cfg.selCode .four) f s = .ok 4 := by
  rw [aluSourceB, srcBCode_toNat, wiredMux_code _ _ (mem_sourceB _)]

@[simp] theorem destination_rt (t : SelCode) (f : Fields) : destination t (dstCode t .rt) f = .ok f.rt := by
  rw [destination, dstCode_toNat, wiredMux_code _ _ (mem_destination _)]
@[simp] theorem destination_rd (t : SelCode) (f : Fields) : destination t (dstCode t .rd) f = .ok f.rd := by
  rw [destination, dstCode_toNat, wiredMux_code _ _ (mem_destination _)]
@[simp] theorem destination_link (t : SelCode) (f : Fields) : destination t (dstCode t .link) f = .ok 31 := by
  rw [destination, dstCode_toNat, wiredMux_code _ _ (mem_destination _)]

@[simp] theorem writeData_aluOut (s : State) : writeData (dataCode s.cfg.selCode .aluOut) s = .ok s.aluOut := by
  rw [writeData, dataCode_toNat, wiredMux_code _ _ (mem_writeData _)]
@[simp] theorem writeData_mdr (s : State) : writeData (dataCode s.cfg.selCode .mdr) s = .ok s.mdr := by
  rw [writeData, dataCode_toNat, wiredMux_code _ _ (mem_writeData _)]

@[simp] theorem pcSourceOf_pcCode (t : SelCode) (x : PcSource) : pcSourceOf t (pcCode t x) = some x := by
  rw [pcSourceOf, pcCode_toNat]
  exact numbering_name_code _ (mem_pcSource x)

/-- R173: a vector whose three two-bit selectors are codes passes the range check. -/
theorem badSelect_of_codes {sig : Signals} {t : SelCode} {p : PcSource} {d : Destination} {b : SourceB}
    (hp : sig.pcSource = pcCode t p) (hd : sig.regDst = dstCode t d) (hb : sig.aluSrcB = srcBCode t b) :
    sig.badSelect = none := by
  have h1 : sig.pcSource.toNat < 3 := by rw [hp, pcCode_toNat]; exact numbering_code_lt _ (mem_pcSource p)
  have h2 : sig.regDst.toNat < 3 := by rw [hd, dstCode_toNat]; exact numbering_code_lt _ (mem_destination d)
  have h3 : sig.aluSrcB.toNat < 3 := by rw [hb, srcBCode_toNat]; exact numbering_code_lt _ (mem_sourceB b)
  rw [Signals.badSelect, if_neg (by omega), if_neg (by omega), if_neg (by omega)]

/-! ## ISA_TABLE -/

/-- A name whose code no other name has is found by its code. -/
theorem find_code {α : Type} {n : Nat} {all : List α} {code : α → BitVec n} {a : α} (h : (all.map code).Nodup)
    (ha : a ∈ all) : all.find? (fun x => code x == code a) = some a := by
  cases hf : all.find? (fun x => code x == code a) with
  | none => exact absurd (List.find?_eq_none.mp hf a ha) (by simp)
  | some b =>
    have hc : code b = code a := by simpa using List.find?_some hf
    rw [List.inj_on_of_nodup_map h (List.mem_of_find?_eq_some hf) ha hc]

theorem majorOf_opcode (t : IsaTable) (m : Major) : t.majorOf (t.opcode m) = some m :=
  find_code (code := t.opcode) t.opcodesDistinct (mem_major m)

theorem opcode_of_majorOf {t : IsaTable} {op : BitVec 6} {m : Major} (h : t.majorOf op = some m) : t.opcode m = op := by
  simpa using List.find?_some h

theorem aluOpOf_funct (t : IsaTable) (op : AluOp) : t.aluOpOf (t.funct op) = some op :=
  find_code (code := t.funct) t.functsDistinct (mem_aluOp op)

theorem funct_of_aluOpOf {t : IsaTable} {fn : BitVec 6} {op : AluOp} (h : t.aluOpOf fn = some op) : t.funct op = fn := by
  simpa using List.find?_some h

/-- R80: an opcode that no row has. -/
theorem majorOf_eq_none {t : IsaTable} {op : BitVec 6} : t.majorOf op = none ↔ ∀ m, t.opcode m ≠ op := by
  simp [IsaTable.majorOf, mem_major]

/-- R81: a funct that no row has. -/
theorem aluOpOf_eq_none {t : IsaTable} {fn : BitVec 6} : t.aluOpOf fn = none ↔ ∀ op, t.funct op ≠ fn := by
  simp [IsaTable.aluOpOf, mem_aluOp]

/-! Each row by its field, the form in which `encode` writes the numbers. -/

@[simp] theorem majorOf_rType (t : IsaTable) : t.majorOf t.rType = some .rType := majorOf_opcode t .rType
@[simp] theorem majorOf_j (t : IsaTable) : t.majorOf t.j = some .j := majorOf_opcode t .j
@[simp] theorem majorOf_jal (t : IsaTable) : t.majorOf t.jal = some .jal := majorOf_opcode t .jal
@[simp] theorem majorOf_beq (t : IsaTable) : t.majorOf t.beq = some .beq := majorOf_opcode t .beq
@[simp] theorem majorOf_bne (t : IsaTable) : t.majorOf t.bne = some .bne := majorOf_opcode t .bne
@[simp] theorem majorOf_addi (t : IsaTable) : t.majorOf t.addi = some .addi := majorOf_opcode t .addi
@[simp] theorem majorOf_slti (t : IsaTable) : t.majorOf t.slti = some .slti := majorOf_opcode t .slti
@[simp] theorem majorOf_andi (t : IsaTable) : t.majorOf t.andi = some .andi := majorOf_opcode t .andi
@[simp] theorem majorOf_ori (t : IsaTable) : t.majorOf t.ori = some .ori := majorOf_opcode t .ori
@[simp] theorem majorOf_xori (t : IsaTable) : t.majorOf t.xori = some .xori := majorOf_opcode t .xori
@[simp] theorem majorOf_lw (t : IsaTable) : t.majorOf t.lw = some .lw := majorOf_opcode t .lw
@[simp] theorem majorOf_sw (t : IsaTable) : t.majorOf t.sw = some .sw := majorOf_opcode t .sw
@[simp] theorem majorOf_halt (t : IsaTable) : t.majorOf t.halt = some .halt := majorOf_opcode t .halt
@[simp] theorem aluOpOf_functAdd (t : IsaTable) : t.aluOpOf t.functAdd = some .add := aluOpOf_funct t .add
@[simp] theorem aluOpOf_functSub (t : IsaTable) : t.aluOpOf t.functSub = some .sub := aluOpOf_funct t .sub
@[simp] theorem aluOpOf_functAnd (t : IsaTable) : t.aluOpOf t.functAnd = some .and := aluOpOf_funct t .and
@[simp] theorem aluOpOf_functOr (t : IsaTable) : t.aluOpOf t.functOr = some .or := aluOpOf_funct t .or
@[simp] theorem aluOpOf_functXor (t : IsaTable) : t.aluOpOf t.functXor = some .xor := aluOpOf_funct t .xor
@[simp] theorem aluOpOf_functSll (t : IsaTable) : t.aluOpOf t.functSll = some .sll := aluOpOf_funct t .sll
@[simp] theorem aluOpOf_functSrl (t : IsaTable) : t.aluOpOf t.functSrl = some .srl := aluOpOf_funct t .srl
@[simp] theorem aluOpOf_functSra (t : IsaTable) : t.aluOpOf t.functSra = some .sra := aluOpOf_funct t .sra
@[simp] theorem aluOpOf_functSlt (t : IsaTable) : t.aluOpOf t.functSlt = some .slt := aluOpOf_funct t .slt

end Sys2Proof.Laws
end

