-- ==== Sys2Proof/Laws/Alu.lean ====
section
/-! SUPPORT. Laws/Alu.lean: the ALU on the codes the control units produce (40_alu.md R100, R101, R113). -/

namespace Sys2Proof.Laws

open Sys2Proof.Machine

/-- Bit 31 of a Word, as a number. -/
theorem msb_word (v : Word) : v.msb = decide (2 ^ 31 ≤ v.toNat) := by
  simp [BitVec.msb_eq_decide]

/-- R8: `signed(w)`. -/
theorem toInt_word (v : Word) : v.toInt = if 2 ^ 31 ≤ v.toNat then (v.toNat : Int) - 2 ^ 32 else (v.toNat : Int) := by
  rw [BitVec.toInt_eq_msb_cond, msb_word]
  simp

/-- D3: the shift amount is the low five bits, as a number. -/
theorem shiftAmount_eq (b : Word) : shiftAmount b = b.toNat % 32 := by
  simp [shiftAmount]

/-- R101: every code of R100 gives a result. -/
@[simp] theorem alu_code (t : AluOpCode) (op : AluOp) (a b : Word) :
    alu t (aluCode t op) a b = some (aluResult op a b, aluFlags op a b) := by
  simp [alu]

/-- R113. -/
@[simp] theorem runAlu_code (op : AluOp) (a b : Word) (s : State) :
    runAlu (aluCode s.cfg.aluOpCode op) a b s = some (aluResult op a b, { s with flags := aluFlags op a b }) := by
  simp [runAlu]

/-- R103: Z after SUB is equality of the operands. -/
@[simp] theorem aluFlags_sub_z (a b : Word) : (aluFlags .sub a b).z = (a == b) := by
  have h : a - b = 0 ↔ a = b := BitVec.sub_eq_iff_eq_add.trans (by simp)
  rw [Bool.eq_iff_iff]
  simpa [aluFlags, aluResult] using h

end Sys2Proof.Laws
end

