-- ==== Sys2Proof/Laws/Encoding.lean ====
section
/-! SUPPORT. Laws/Encoding.lean: the fields of an encoded word, one lemma per format and field (30_encoding.md R71), and
the mask and match of a format. -/

namespace Sys2Proof.Laws

/-- Concatenation places the high part above the low one (R7). -/
theorem toNat_concat {m n : Nat} (a : BitVec m) (b : BitVec n) : (a ++ b).toNat = a.toNat * 2 ^ n + b.toNat := by
  rw [BitVec.toNat_append, ← Nat.shiftLeft_add_eq_or_of_lt b.isLt, Nat.shiftLeft_eq]

theorem toNat_encodeR (opcode funct : BitVec 6) (rs rt rd shamt : RegIdx) :
    (encodeR opcode funct rs rt rd shamt).toNat =
      ((((opcode.toNat * 2 ^ 5 + rs.toNat) * 2 ^ 5 + rt.toNat) * 2 ^ 5 + rd.toNat) * 2 ^ 5 + shamt.toNat) * 2 ^ 6 +
        funct.toNat := by
  show BitVec.toNat (w := 6 + 5 + 5 + 5 + 5 + 6) (opcode ++ rs ++ rt ++ rd ++ shamt ++ funct) = _
  simp only [toNat_concat]

theorem toNat_encodeI (opcode : BitVec 6) (rs rt : RegIdx) (imm : BitVec 16) :
    (encodeI opcode rs rt imm).toNat = ((opcode.toNat * 2 ^ 5 + rs.toNat) * 2 ^ 5 + rt.toNat) * 2 ^ 16 + imm.toNat := by
  show BitVec.toNat (w := 6 + 5 + 5 + 16) (opcode ++ rs ++ rt ++ imm) = _
  simp only [toNat_concat]

theorem toNat_encodeJ (opcode : BitVec 6) (address : BitVec 26) :
    (encodeJ opcode address).toNat = opcode.toNat * 2 ^ 26 + address.toNat := by
  show BitVec.toNat (w := 6 + 26) (opcode ++ address) = _
  simp only [toNat_concat]

/-- A bit field of a word, as a number. -/
theorem toNat_field (w : Word) (lo len : Nat) : (w.extractLsb' lo len).toNat = w.toNat / 2 ^ lo % 2 ^ len := by
  rw [BitVec.extractLsb'_toNat, Nat.shiftRight_eq_div_pow]

/-! ## R format -/

@[simp] theorem opcodeOf_encodeR (opcode funct : BitVec 6) (rs rt rd shamt : RegIdx) :
    opcodeOf (encodeR opcode funct rs rt rd shamt) = opcode := by
  apply BitVec.eq_of_toNat_eq
  rw [opcodeOf, toNat_field, toNat_encodeR]
  omega

@[simp] theorem rsOf_encodeR (opcode funct : BitVec 6) (rs rt rd shamt : RegIdx) :
    rsOf (encodeR opcode funct rs rt rd shamt) = rs := by
  apply BitVec.eq_of_toNat_eq
  rw [rsOf, toNat_field, toNat_encodeR]
  omega

@[simp] theorem rtOf_encodeR (opcode funct : BitVec 6) (rs rt rd shamt : RegIdx) :
    rtOf (encodeR opcode funct rs rt rd shamt) = rt := by
  apply BitVec.eq_of_toNat_eq
  rw [rtOf, toNat_field, toNat_encodeR]
  omega

@[simp] theorem rdOf_encodeR (opcode funct : BitVec 6) (rs rt rd shamt : RegIdx) :
    rdOf (encodeR opcode funct rs rt rd shamt) = rd := by
  apply BitVec.eq_of_toNat_eq
  rw [rdOf, toNat_field, toNat_encodeR]
  omega

@[simp] theorem shamtOf_encodeR (opcode funct : BitVec 6) (rs rt rd shamt : RegIdx) :
    shamtOf (encodeR opcode funct rs rt rd shamt) = shamt := by
  apply BitVec.eq_of_toNat_eq
  rw [shamtOf, toNat_field, toNat_encodeR]
  omega

@[simp] theorem functOf_encodeR (opcode funct : BitVec 6) (rs rt rd shamt : RegIdx) :
    functOf (encodeR opcode funct rs rt rd shamt) = funct := by
  apply BitVec.eq_of_toNat_eq
  rw [functOf, toNat_field, toNat_encodeR]
  omega

/-! ## I format -/

@[simp] theorem opcodeOf_encodeI (opcode : BitVec 6) (rs rt : RegIdx) (imm : BitVec 16) :
    opcodeOf (encodeI opcode rs rt imm) = opcode := by
  apply BitVec.eq_of_toNat_eq
  rw [opcodeOf, toNat_field, toNat_encodeI]
  omega

@[simp] theorem rsOf_encodeI (opcode : BitVec 6) (rs rt : RegIdx) (imm : BitVec 16) :
    rsOf (encodeI opcode rs rt imm) = rs := by
  apply BitVec.eq_of_toNat_eq
  rw [rsOf, toNat_field, toNat_encodeI]
  omega

@[simp] theorem rtOf_encodeI (opcode : BitVec 6) (rs rt : RegIdx) (imm : BitVec 16) :
    rtOf (encodeI opcode rs rt imm) = rt := by
  apply BitVec.eq_of_toNat_eq
  rw [rtOf, toNat_field, toNat_encodeI]
  omega

@[simp] theorem imm16Of_encodeI (opcode : BitVec 6) (rs rt : RegIdx) (imm : BitVec 16) :
    imm16Of (encodeI opcode rs rt imm) = imm := by
  apply BitVec.eq_of_toNat_eq
  rw [imm16Of, toNat_field, toNat_encodeI]
  omega

/-! ## J format -/

@[simp] theorem opcodeOf_encodeJ (opcode : BitVec 6) (address : BitVec 26) :
    opcodeOf (encodeJ opcode address) = opcode := by
  apply BitVec.eq_of_toNat_eq
  rw [opcodeOf, toNat_field, toNat_encodeJ]
  omega

@[simp] theorem addressOf_encodeJ (opcode : BitVec 6) (address : BitVec 26) :
    addressOf (encodeJ opcode address) = address := by
  apply BitVec.eq_of_toNat_eq
  rw [addressOf, toNat_field, toNat_encodeJ]
  omega

@[simp] theorem rsOf_encodeJ (opcode : BitVec 6) (address : BitVec 26) :
    rsOf (encodeJ opcode address) = address.extractLsb' 21 5 := by
  apply BitVec.eq_of_toNat_eq
  rw [rsOf, toNat_field, toNat_encodeJ, BitVec.extractLsb'_toNat, Nat.shiftRight_eq_div_pow]
  omega

@[simp] theorem rtOf_encodeJ (opcode : BitVec 6) (address : BitVec 26) :
    rtOf (encodeJ opcode address) = address.extractLsb' 16 5 := by
  apply BitVec.eq_of_toNat_eq
  rw [rtOf, toNat_field, toNat_encodeJ, BitVec.extractLsb'_toNat, Nat.shiftRight_eq_div_pow]
  omega

/-! ## Mask and match of a format (the "mask" and "match" columns of the opcode table) -/

/-- Bits 31:26 alone. -/
theorem mask_opcode (w : Word) : w &&& 0xFC000000 = (opcodeOf w).setWidth 32 <<< 26 := by
  apply BitVec.eq_of_getLsbD_eq
  intro i hi
  unfold opcodeOf
  interval_cases i <;> simp

/-- Bits 31:26 and 5:0 alone. -/
theorem mask_opcode_funct (w : Word) :
    w &&& (0xFC00003F : Word) = ((opcodeOf w).setWidth 32 <<< 26 : Word) ||| ((functOf w).setWidth 32 : Word) := by
  apply BitVec.eq_of_getLsbD_eq
  intro i hi
  unfold opcodeOf functOf
  interval_cases i <;> simp

theorem encodeR_mask (opcode funct : BitVec 6) (rs rt rd shamt : RegIdx) :
    encodeR opcode funct rs rt rd shamt &&& (0xFC00003F : Word) =
      ((opcode.setWidth 32 <<< 26 : Word) ||| (funct.setWidth 32 : Word)) := by
  rw [mask_opcode_funct]
  simp

theorem encodeI_mask (opcode : BitVec 6) (rs rt : RegIdx) (imm : BitVec 16) :
    encodeI opcode rs rt imm &&& 0xFC000000 = opcode.setWidth 32 <<< 26 := by
  rw [mask_opcode]
  simp

theorem encodeJ_mask (opcode : BitVec 6) (address : BitVec 26) :
    encodeJ opcode address &&& 0xFC000000 = opcode.setWidth 32 <<< 26 := by
  rw [mask_opcode]
  simp

/-- A word is put together from its R-format fields. -/
theorem word_of_fieldsR (w : Word) :
    encodeR (opcodeOf w) (functOf w) (rsOf w) (rtOf w) (rdOf w) (shamtOf w) = w := by
  apply BitVec.eq_of_toNat_eq
  simp only [toNat_encodeR, opcodeOf, functOf, rsOf, rtOf, rdOf, shamtOf, toNat_field]
  have := w.isLt
  omega

/-- A word is put together from its I-format fields. -/
theorem word_of_fieldsI (w : Word) : encodeI (opcodeOf w) (rsOf w) (rtOf w) (imm16Of w) = w := by
  apply BitVec.eq_of_toNat_eq
  simp only [toNat_encodeI, opcodeOf, rsOf, rtOf, imm16Of, toNat_field]
  have := w.isLt
  omega

/-- A word is put together from its J-format fields. -/
theorem word_of_fieldsJ (w : Word) : encodeJ (opcodeOf w) (addressOf w) = w := by
  apply BitVec.eq_of_toNat_eq
  simp only [toNat_encodeJ, opcodeOf, addressOf, toNat_field]
  have := w.isLt
  omega

end Sys2Proof.Laws
end

