-- ==== Sys2Proof/Laws/Memory.lean ====
section
/-! SUPPORT. Laws/Memory.lean: read after write, the canonical form and its preservation (20_memory.md R50 to R55). -/

namespace Sys2Proof.Laws

open Sys2Proof.Machine

@[simp] theorem Memory.read_nil (i : Nat) : Memory.read [] i = 0#32 := rfl

/-- Below the first listed index nothing is listed. -/
theorem Memory.read_of_lt {lo i : Nat} {m : Memory} (h : Memory.wfFrom lo m = true) (hi : i < lo) :
    Memory.read m i = 0#32 := by
  induction m generalizing lo with
  | nil => rfl
  | cons c rest ih =>
    obtain ⟨k, v⟩ := c
    simp only [Memory.wfFrom, Bool.and_eq_true, decide_eq_true_eq] at h
    have hk : i ≠ k := by omega
    simp only [Memory.read, if_neg hk]
    exact ih h.2 (by omega)

theorem Memory.wfFrom_mono {lo lo' : Nat} {m : Memory} (hlo : lo' ≤ lo) (h : Memory.wfFrom lo m = true) :
    Memory.wfFrom lo' m = true := by
  cases m with
  | nil => rfl
  | cons c rest =>
    obtain ⟨k, v⟩ := c
    simp only [Memory.wfFrom, Bool.and_eq_true, decide_eq_true_eq] at h ⊢
    exact ⟨⟨by omega, h.1.2⟩, h.2⟩

/-- R60: a read returns the latest Word written to that cell, and every other cell reads as before. -/
theorem Memory.read_write {lo : Nat} {m : Memory} (h : Memory.wfFrom lo m = true) (i j : Nat) (v : Word) :
    Memory.read (Memory.write m i v) j = if j = i then v else Memory.read m j := by
  induction m generalizing lo with
  | nil =>
    by_cases hv : v = 0#32 <;> by_cases hj : j = i <;> simp [Memory.write, Memory.read, hv, hj]
  | cons c rest ih =>
    obtain ⟨k, u⟩ := c
    simp only [Memory.wfFrom, Bool.and_eq_true, decide_eq_true_eq] at h
    have hrest := h.2
    simp only [Memory.write]
    by_cases hik : i < k
    · have hz : Memory.read rest i = 0#32 := Memory.read_of_lt hrest (by omega)
      have hne : i ≠ k := by omega
      by_cases hv : v = 0#32 <;> by_cases hj : j = i <;> simp [Memory.read, hik, hv, hj, hne, hz]
    · by_cases heq : i = k
      · subst heq
        have hz : Memory.read rest i = 0#32 := Memory.read_of_lt hrest (by omega)
        by_cases hv : v = 0#32 <;> by_cases hj : j = i <;> simp [Memory.read, hv, hj, hz]
      · simp only [if_neg hik, if_neg heq, Memory.read, ih hrest]
        by_cases hj : j = k
        · have : j ≠ i := by omega
          simp [hj, Ne.symm heq]
        · simp [hj]

/-- Writing keeps the canonical form. -/
theorem Memory.wfFrom_write {lo : Nat} {m : Memory} (h : Memory.wfFrom lo m = true) {i : Nat} (hi : lo ≤ i) (v : Word) :
    Memory.wfFrom lo (Memory.write m i v) = true := by
  induction m generalizing lo with
  | nil =>
    by_cases hv : v = 0#32 <;> simp [Memory.write, Memory.wfFrom, hv, hi]
  | cons c rest ih =>
    obtain ⟨k, u⟩ := c
    have h0 := h
    simp only [Memory.wfFrom, Bool.and_eq_true, decide_eq_true_eq] at h
    simp only [Memory.write]
    by_cases hik : i < k
    · by_cases hv : v = 0#32
      · simpa [hik, hv] using h0
      · simp only [hik, hv, if_true, if_false, Memory.wfFrom, Bool.and_eq_true, decide_eq_true_eq]
        exact ⟨⟨hi, by simpa using hv⟩, ⟨by omega, h.1.2⟩, h.2⟩
    · by_cases heq : i = k
      · by_cases hv : v = 0#32
        · simpa [heq, hv] using Memory.wfFrom_mono (by omega) h.2
        · simp only [heq, hv, lt_irrefl, if_true, if_false, Memory.wfFrom, Bool.and_eq_true, decide_eq_true_eq]
          exact ⟨⟨h.1.1, by simpa using hv⟩, h.2⟩
      · simp only [if_neg hik, if_neg heq, Memory.wfFrom, Bool.and_eq_true, decide_eq_true_eq]
        exact ⟨h.1, ih h.2 (by omega)⟩

theorem Memory.wf_write {m : Memory} (h : Memory.wf m = true) (i : Nat) (v : Word) :
    Memory.wf (Memory.write m i v) = true := Memory.wfFrom_write h (Nat.zero_le i) v

/-- Writing a cell below `n` keeps every listed cell below `n`. -/
theorem Memory.within_write {n : Nat} {m : Memory} (h : Memory.within n m = true) {i : Nat} (hi : i < n) (v : Word) :
    Memory.within n (Memory.write m i v) = true := by
  induction m with
  | nil => by_cases hv : v = 0#32 <;> simp [Memory.within, Memory.write, hv, hi]
  | cons c rest ih =>
    obtain ⟨k, u⟩ := c
    have hcons : ∀ (c : Nat × Word) (l : Memory),
        Memory.within n (c :: l) = (decide (c.1 < n) && Memory.within n l) := fun _ _ => rfl
    simp only [hcons, Bool.and_eq_true, decide_eq_true_eq] at h
    simp only [Memory.write]
    split
    · split <;> simp [hcons, h, hi]
    · split
      · split <;> simp [hcons, h, hi]
      · simp [hcons, h.1, ih h.2]

/-- R54, R55: the cell of an address is the address divided by 4. -/
theorem cellIndex_eq (addr : Word) : cellIndex addr = addr.toNat / 4 := by
  simp [cellIndex, Nat.shiftRight_eq_div_pow]

/-- R52. -/
theorem memRead_of_lt {s : State} {addr : Word} (h : cellIndex addr < s.cfg.memWords) :
    memRead s addr = some (Memory.read s.mem (cellIndex addr)) := if_pos h

/-- R54. -/
theorem memRead_eq_none {s : State} {addr : Word} : memRead s addr = none ↔ s.cfg.memWords ≤ cellIndex addr := by
  simp [memRead]

/-- R53: everything `MemWrite` can do. -/
theorem memWrite_eq_some {s t : State} {addr v : Word} :
    memWrite s addr v = some t ↔
      cellIndex addr < s.cfg.memWords ∧ t = { s with mem := Memory.write s.mem (cellIndex addr) v } := by
  simp [memWrite, eq_comm]

/-- R54. -/
theorem memWrite_eq_none {s : State} {addr v : Word} : memWrite s addr v = none ↔ s.cfg.memWords ≤ cellIndex addr := by
  simp [memWrite]

end Sys2Proof.Laws
end

