-- ==== Sys2Proof/Laws/Registers.lean ====
section
/-! SUPPORT. Laws/Registers.lean: the register file's read and write ports (10_state.md R22, R23). -/

namespace Sys2Proof.Laws

open Sys2Proof.Machine

/-- R22. -/
@[simp] theorem RegFile.read_zero (x : RegFile) : RegFile.read x 0#5 = 0#32 := rfl

@[simp] theorem RegFile.write_disabled (x : RegFile) (i : RegIdx) (v : Word) : RegFile.write x false i v = x := by
  simp [RegFile.write]

@[simp] theorem RegFile.write_zero (x : RegFile) (enable : Bool) (v : Word) : RegFile.write x enable 0#5 v = x := by
  cases enable <;> rfl

/-- R22, R23: what either read port shows after a write. -/
theorem RegFile.read_write (x : RegFile) (enable : Bool) (i j : RegIdx) (v : Word) :
    RegFile.read (RegFile.write x enable i v) j =
      if enable = true ∧ j = i ∧ i ≠ 0#5 then v else RegFile.read x j := by
  by_cases hj : j = 0#5
  · subst hj
    by_cases hi : i = 0#5
    · simp [RegFile.write, hi]
    · simp [RegFile.read, Ne.symm hi]
  · by_cases hi : i = 0#5
    · simp [RegFile.write, hi]
    · cases enable
      · simp
      · by_cases hij : j = i
        · subst hij
          simp [RegFile.read, RegFile.write, hj]
        · have : i.toNat ≠ j.toNat := fun h => hij (BitVec.eq_of_toNat_eq h.symm)
          simp [RegFile.read, RegFile.write, hi, hj, hij, Vector.getElem_set_ne, this]

/-- R23: cell 0 is never written. -/
theorem RegFile.cellZero_write (x : RegFile) (enable : Bool) (i : RegIdx) (v : Word) :
    (RegFile.write x enable i v)[0] = x[0] := by
  by_cases hi : i = 0#5
  · simp [RegFile.write, hi]
  · have : i.toNat ≠ 0 := fun h => hi (BitVec.eq_of_toNat_eq h)
    cases enable
    · simp
    · simp only [RegFile.write, if_neg hi, if_true]
      exact Vector.getElem_set_ne (by omega) (by omega) this

end Sys2Proof.Laws
end

