-- ==== Sys2Proof/Laws/State.lean ====
section
/-! SUPPORT. Laws/State.lean: one lemma per field for each named update of State that is a plain record update, true by rfl;
later proofs need not unfold them. -/

namespace Sys2Proof.Laws

open Sys2Proof.Machine

/-! ## the free register read (R174) -/

@[simp] theorem readRegisters_cfg (f : Fields) (s : State) : (readRegisters f s).cfg = s.cfg := rfl
@[simp] theorem readRegisters_x (f : Fields) (s : State) : (readRegisters f s).x = s.x := rfl
@[simp] theorem readRegisters_pc (f : Fields) (s : State) : (readRegisters f s).pc = s.pc := rfl
@[simp] theorem readRegisters_ir (f : Fields) (s : State) : (readRegisters f s).ir = s.ir := rfl
@[simp] theorem readRegisters_a (f : Fields) (s : State) : (readRegisters f s).a = s.reg f.rs := rfl
@[simp] theorem readRegisters_b (f : Fields) (s : State) : (readRegisters f s).b = s.reg f.rt := rfl
@[simp] theorem readRegisters_aluOut (f : Fields) (s : State) : (readRegisters f s).aluOut = s.aluOut := rfl
@[simp] theorem readRegisters_mdr (f : Fields) (s : State) : (readRegisters f s).mdr = s.mdr := rfl
@[simp] theorem readRegisters_flags (f : Fields) (s : State) : (readRegisters f s).flags = s.flags := rfl
@[simp] theorem readRegisters_mem (f : Fields) (s : State) : (readRegisters f s).mem = s.mem := rfl
@[simp] theorem readRegisters_fsm (f : Fields) (s : State) : (readRegisters f s).fsm = s.fsm := rfl
@[simp] theorem readRegisters_cycles (f : Fields) (s : State) : (readRegisters f s).cycles = s.cycles := rfl

/-! ## `set_pc` (R304) -/

@[simp] theorem setPc_cfg (v : Int) (s : State) : (setPc v s).cfg = s.cfg := rfl
@[simp] theorem setPc_x (v : Int) (s : State) : (setPc v s).x = s.x := rfl
@[simp] theorem setPc_pc (v : Int) (s : State) : (setPc v s).pc = trunc32 v := rfl
@[simp] theorem setPc_ir (v : Int) (s : State) : (setPc v s).ir = s.ir := rfl
@[simp] theorem setPc_a (v : Int) (s : State) : (setPc v s).a = s.a := rfl
@[simp] theorem setPc_b (v : Int) (s : State) : (setPc v s).b = s.b := rfl
@[simp] theorem setPc_aluOut (v : Int) (s : State) : (setPc v s).aluOut = s.aluOut := rfl
@[simp] theorem setPc_mdr (v : Int) (s : State) : (setPc v s).mdr = s.mdr := rfl
@[simp] theorem setPc_flags (v : Int) (s : State) : (setPc v s).flags = s.flags := rfl
@[simp] theorem setPc_mem (v : Int) (s : State) : (setPc v s).mem = s.mem := rfl
@[simp] theorem setPc_fsm (v : Int) (s : State) : (setPc v s).fsm = s.fsm := rfl
@[simp] theorem setPc_cycles (v : Int) (s : State) : (setPc v s).cycles = s.cycles := rfl

/-! ## `reset()` (R290) -/

@[simp] theorem hostReset_cfg (s : State) : (hostReset s).cfg = s.cfg := rfl
@[simp] theorem hostReset_x (s : State) : (hostReset s).x = Vector.replicate 32 0 := rfl
@[simp] theorem hostReset_pc (s : State) : (hostReset s).pc = 0 := rfl
@[simp] theorem hostReset_ir (s : State) : (hostReset s).ir = 0 := rfl
@[simp] theorem hostReset_a (s : State) : (hostReset s).a = 0 := rfl
@[simp] theorem hostReset_b (s : State) : (hostReset s).b = 0 := rfl
@[simp] theorem hostReset_aluOut (s : State) : (hostReset s).aluOut = 0 := rfl
@[simp] theorem hostReset_mdr (s : State) : (hostReset s).mdr = 0 := rfl
@[simp] theorem hostReset_flags (s : State) : (hostReset s).flags = { z := false, n := false, v := false } := rfl
@[simp] theorem hostReset_mem (s : State) : (hostReset s).mem = s.mem := rfl
@[simp] theorem hostReset_fsm (s : State) : (hostReset s).fsm = .fetch := rfl
@[simp] theorem hostReset_cycles (s : State) : (hostReset s).cycles = 0 := rfl

/-! ## power-on (R44, R293) -/

@[simp] theorem powerOn_cfg (c : Config) : (State.powerOn c).cfg = c := rfl
@[simp] theorem powerOn_x (c : Config) : (State.powerOn c).x = Vector.replicate 32 0 := rfl
@[simp] theorem powerOn_pc (c : Config) : (State.powerOn c).pc = 0 := rfl
@[simp] theorem powerOn_ir (c : Config) : (State.powerOn c).ir = 0 := rfl
@[simp] theorem powerOn_a (c : Config) : (State.powerOn c).a = 0 := rfl
@[simp] theorem powerOn_b (c : Config) : (State.powerOn c).b = 0 := rfl
@[simp] theorem powerOn_aluOut (c : Config) : (State.powerOn c).aluOut = 0 := rfl
@[simp] theorem powerOn_mdr (c : Config) : (State.powerOn c).mdr = 0 := rfl
@[simp] theorem powerOn_flags (c : Config) : (State.powerOn c).flags = { z := false, n := false, v := false } := rfl
@[simp] theorem powerOn_mem (c : Config) : (State.powerOn c).mem = [] := rfl
@[simp] theorem powerOn_fsm (c : Config) : (State.powerOn c).fsm = .fetch := rfl
@[simp] theorem powerOn_cycles (c : Config) : (State.powerOn c).cycles = 0 := rfl

end Sys2Proof.Laws
end

