-- ==== Sys2Proof/Laws/Datapath.lean ====
section
/-! SUPPORT. Laws/Datapath.lean: one lemma per phase and class, saying all that the phase does under the vectors of the two
control units (41 R132, 42 R152, 43 R171 to R178), and what one whole single-cycle instruction does. -/

namespace Sys2Proof.Laws

open Sys2Proof.Machine

/-! ## Sequencing -/

@[simp] theorem andThen_next (s : State) (k : State → Res) : andThen (.next s) k = k s := rfl
@[simp] theorem andThen_fault (f : Fault) (k : State → Res) : andThen (.fault f) k = .fault f := rfl
@[simp] theorem andThen_refused (q : Refusal) (k : State → Res) : andThen (.refused q) k = .refused q := rfl

theorem andThen_eq_next {r : Res} {k : State → Res} {t : State} :
    andThen r k = .next t ↔ ∃ s, r = .next s ∧ k s = .next t := by
  cases r <;> simp

theorem andThen_eq_fault {r : Res} {k : State → Res} {f : Fault} :
    andThen r k = .fault f ↔ r = .fault f ∨ ∃ s, r = .next s ∧ k s = .fault f := by
  cases r <;> simp

theorem andThen_eq_refused {r : Res} {k : State → Res} {q : Refusal} :
    andThen r k = .refused q ↔ r = .refused q ∨ ∃ s, r = .next s ∧ k s = .refused q := by
  cases r <;> simp

/-- A tick completes exactly when its phase does (R159). -/
theorem tick_eq_next {nxt : Phase} {r : Res} {t : State} :
    tick nxt r = .next t ↔ ∃ s, r = .next s ∧ t = { s with fsm := nxt, cycles := s.cycles + 1 } := by
  cases r <;> simp [tick, eq_comm]

theorem tick_eq_fault {nxt : Phase} {r : Res} {f : Fault} : tick nxt r = .fault f ↔ r = .fault f := by
  cases r <;> simp [tick]

theorem tick_eq_refused {nxt : Phase} {r : Res} {q : Refusal} : tick nxt r = .refused q ↔ r = .refused q := by
  cases r <;> simp [tick]

@[simp] theorem tick_next (nxt : Phase) (s : State) :
    tick nxt (.next s) = .next { s with fsm := nxt, cycles := s.cycles + 1 } := rfl

/-! ## Vectors -/

@[simp] theorem badSelect_sig0 (cfg : Config) : (sig0 cfg).badSelect = none := badSelect_of_codes rfl rfl rfl

@[simp] theorem badSelect_fetchVector (cfg : Config) : (fetchVector cfg).badSelect = none := badSelect_of_codes rfl rfl rfl

/-- R132, R140: the one class that does not commit PC + 4 in the fetch phase, whatever the tables. -/
theorem scControl_pcWrite (cfg : Config) (c : InstrClass) (z : Bool) : (scControl cfg c z).pcWrite = decide (c ≠ .halt) := by
  rcases c with op | op | _ | _ | sense | link | _
  · rfl
  · rfl
  · rfl
  · rfl
  · rfl
  · cases link <;> rfl
  · rfl

/-- R132: no vector of the single-cycle unit has a selector out of range. -/
@[simp] theorem badSelect_scControl (cfg : Config) (c : InstrClass) (z : Bool) : (scControl cfg c z).badSelect = none := by
  rcases c with op | op | _ | _ | sense | link | _
  · exact badSelect_of_codes rfl rfl rfl
  · exact badSelect_of_codes rfl rfl rfl
  · exact badSelect_of_codes rfl rfl rfl
  · exact badSelect_of_codes rfl rfl rfl
  · exact badSelect_of_codes rfl rfl rfl
  · cases link <;> exact badSelect_of_codes rfl rfl rfl
  · exact badSelect_of_codes rfl rfl rfl

@[simp] theorem badSelect_executeVector (cfg : Config) (c : InstrClass) (z : Bool) :
    (executeVector cfg c z).badSelect = none := by
  rcases c with op | op | _ | _ | sense | link | _
  · exact badSelect_of_codes rfl rfl rfl
  · exact badSelect_of_codes rfl rfl rfl
  · exact badSelect_of_codes rfl rfl rfl
  · exact badSelect_of_codes rfl rfl rfl
  · exact badSelect_of_codes rfl rfl rfl
  · cases link <;> exact badSelect_of_codes rfl rfl rfl
  · exact badSelect_of_codes rfl rfl rfl

/-- R153: nor has one of the multi-cycle unit. -/
theorem badSelect_mcControl {cfg : Config} {p : Phase} {c : InstrClass} {ctl : Bool → Signals}
    (h : mcControl cfg p c = some ctl) (z : Bool) : (ctl z).badSelect = none := by
  cases p with
  | fetch => cases h; exact badSelect_fetchVector cfg
  | decode => cases h; exact badSelect_sig0 cfg
  | execute => cases h; exact badSelect_executeVector cfg c z
  | memory => cases c <;> cases h <;> exact badSelect_of_codes rfl rfl rfl
  | writeback =>
    rcases c with op | op | _ | _ | sense | link | _
    · cases h; exact badSelect_of_codes rfl rfl rfl
    · cases h; exact badSelect_of_codes rfl rfl rfl
    · cases h; exact badSelect_of_codes rfl rfl rfl
    · cases h
    · cases h
    · cases link <;> cases h; exact badSelect_of_codes rfl rfl rfl
    · cases h

/-- A vector in range is simply applied (R173). -/
@[simp] theorem applying_of_none {sig : Signals} (h : sig.badSelect = none) (s : State) (k : Res) : applying sig s k = k := by
  simp [applying, h]

/-! ## The phases -/

/-- R171: the second half of fetch never fails. -/
@[simp] theorem fetchAdvance_eq (sig : Signals) (s : State) :
    fetchAdvance sig s = .next { s with flags := aluFlags .add s.pc 4, pc := gated sig.pcWrite (s.pc + 4) s.pc } := by
  simp [fetchAdvance, aluResult]

/-- R154, R171: the multi-cycle FETCH phase. -/
@[simp] theorem mcPhase_fetch (w : Word) (s : State) :
    mcPhase .fetch (fun _ => fetchVector s.cfg) w s =
      .next { s with ir := w, pc := s.pc + 4, flags := aluFlags .add s.pc 4 } := by
  simp only [mcPhase, fetchPhase, applying_of_none (badSelect_fetchVector _)]
  simp [gated, fetchVector]

/-- R155, R174: the DECODE phase, under any vector in range. -/
theorem mcPhase_decode {ctl : Bool → Signals} (h : (ctl false).badSelect = none) (w : Word) (s : State) :
    mcPhase .decode ctl w s = .next (readRegisters (fields w) s) :=
  applying_of_none h s _

/-- The ALU operation and operands of the execute phase, by class (R132, R156). -/
def executeOp (c : InstrClass) : AluOp :=
  match c with
  | .rType op | .iType op => op
  | .branch _ => .sub
  | .load | .store | .jump _ | .halt => .add

/-- The first ALU operand of the execute phase, by class. -/
def executeA (c : InstrClass) (s : State) : Word :=
  match c with
  | .jump true => s.pc
  | .rType _ | .iType _ | .load | .store | .branch _ | .jump false | .halt => s.a

/-- The second ALU operand of the execute phase, by class. -/
def executeB (c : InstrClass) (f : Fields) (s : State) : Word :=
  match c with
  | .rType _ | .branch _ | .jump false | .halt => s.b
  | .iType _ | .load | .store => f.imm
  | .jump true => 4

/-- Where PC is after the execute phase, by class, from the zero flag of its ALU operation (R176). -/
def executePc (c : InstrClass) (f : Fields) (z : Bool) (pc : Word) : Word :=
  match c with
  | .branch sense => if taken sense z then branchTarget pc f else pc
  | .jump _ => jumpTarget pc f
  | .rType _ | .iType _ | .load | .store | .halt => pc

/-- The state after the execute phase, by class (R175). -/
def executeAfter (c : InstrClass) (f : Fields) (s : State) : State :=
  { s with
    aluOut := aluResult (executeOp c) (executeA c s) (executeB c f s)
    flags := aluFlags (executeOp c) (executeA c s) (executeB c f s)
    pc := executePc c f (aluFlags (executeOp c) (executeA c s) (executeB c f s)).z s.pc }

/-- An execute phase whose vector selects the operands `a`, `b` and the operation `op` (R175). -/
theorem execute_of_operands {ctl : Bool → Signals} {f : Fields} {s : State} {op : AluOp} {a b : Word}
    (hsel : ∀ z, (ctl z).badSelect = none) (ha : aluSourceA (ctl false).aluSrcA s = .ok a)
    (hb : aluSourceB (ctl false).aluSrcB f s = .ok b) (hop : (ctl false).aluOp = aluCode s.cfg.aluOpCode op) :
    execute ctl f s =
      .next (redirect (ctl (aluFlags op a b).z) f { s with flags := aluFlags op a b, aluOut := aluResult op a b }) := by
  simp [execute, applying_of_none (hsel _), ha, hb, hop]

/-- R176: the redirect under a vector whose `pc_source` is the code of `p`. -/
theorem redirect_of_source {sig : Signals} {p : PcSource} {s : State} (f : Fields) :
    sig.pcSource = pcCode s.cfg.selCode p →
    redirect sig f s =
      match sig.pcWrite, p with
      | true, .branch => { s with pc := branchTarget s.pc f }
      | true, .jump => { s with pc := jumpTarget s.pc f }
      | _, _ => s := by
  intro h
  simp only [redirect, h, pcSourceOf_pcCode]
  cases sig.pcWrite <;> cases p <;> rfl

/-- R139, R176: the redirect of a BRANCH: both control units assert `pc_write` where it is taken. -/
theorem redirect_branch {sig : Signals} {sense : Sense} {z : Bool} {s : State} (f : Fields)
    (h : sig.pcSource = pcCode s.cfg.selCode (branchSource sense z)) (hw : taken sense z = true → sig.pcWrite = true) :
    redirect sig f s = { s with pc := if taken sense z then branchTarget s.pc f else s.pc } := by
  rw [redirect_of_source f h]
  unfold branchSource
  cases ht : taken sense z with
  | true => rw [hw ht]; rfl
  | false => cases sig.pcWrite <;> rfl

/-- R175: the execute phase under the multi-cycle vector of a class never fails. -/
theorem execute_executeVector (c : InstrClass) (f : Fields) (s : State) :
    execute (executeVector s.cfg c) f s = .next (executeAfter c f s) := by
  have hsel := badSelect_executeVector s.cfg c
  rcases c with op | op | _ | _ | sense | link | _
  · rw [execute_of_operands (op := op) hsel (aluSourceA_regA s) (aluSourceB_regB f s) rfl, redirect_of_source f rfl]; rfl
  · rw [execute_of_operands (op := op) hsel (aluSourceA_regA s) (aluSourceB_imm f s) rfl, redirect_of_source f rfl]; rfl
  · rw [execute_of_operands (op := .add) hsel (aluSourceA_regA s) (aluSourceB_imm f s) rfl, redirect_of_source f rfl]; rfl
  · rw [execute_of_operands (op := .add) hsel (aluSourceA_regA s) (aluSourceB_imm f s) rfl, redirect_of_source f rfl]; rfl
  · rw [execute_of_operands (op := .sub) hsel (aluSourceA_regA s) (aluSourceB_regB f s) rfl, redirect_branch f rfl id]; rfl
  · cases link
    · rw [execute_of_operands (op := .add) hsel (aluSourceA_regA s) (aluSourceB_regB f s) rfl, redirect_of_source f rfl]; rfl
    · rw [execute_of_operands (op := .add) hsel (aluSourceA_pc s) (aluSourceB_four f s) rfl, redirect_of_source f rfl]; rfl
  · rw [execute_of_operands (op := .add) hsel (aluSourceA_regA s) (aluSourceB_regB f s) rfl, redirect_of_source f rfl]; rfl

/-- R175: and so under the single-cycle vector. -/
theorem execute_scControl (c : InstrClass) (f : Fields) (s : State) :
    execute (scControl s.cfg c) f s = .next (executeAfter c f s) := by
  have hsel := badSelect_scControl s.cfg c
  rcases c with op | op | _ | _ | sense | link | _
  · rw [execute_of_operands (op := op) hsel (aluSourceA_regA s) (aluSourceB_regB f s) rfl, redirect_of_source f rfl]; rfl
  · rw [execute_of_operands (op := op) hsel (aluSourceA_regA s) (aluSourceB_imm f s) rfl, redirect_of_source f rfl]; rfl
  · rw [execute_of_operands (op := .add) hsel (aluSourceA_regA s) (aluSourceB_imm f s) rfl, redirect_of_source f rfl]; rfl
  · rw [execute_of_operands (op := .add) hsel (aluSourceA_regA s) (aluSourceB_imm f s) rfl, redirect_of_source f rfl]; rfl
  · rw [execute_of_operands (op := .sub) hsel (aluSourceA_regA s) (aluSourceB_regB f s) rfl,
      redirect_branch f rfl fun _ => rfl]; rfl
  · cases link
    · rw [execute_of_operands (op := .add) hsel (aluSourceA_regA s) (aluSourceB_regB f s) rfl, redirect_of_source f rfl]; rfl
    · rw [execute_of_operands (op := .add) hsel (aluSourceA_pc s) (aluSourceB_four f s) rfl, redirect_of_source f rfl]; rfl
  · rw [execute_of_operands (op := .add) hsel (aluSourceA_regA s) (aluSourceB_regB f s) rfl, redirect_of_source f rfl]; rfl

/-- R177 with `mem_read`. -/
theorem memoryAccess_read {sig : Signals} {s : State} (h : sig.badSelect = none) (hr : sig.memRead = true) :
    memoryAccess sig s =
      match memRead s s.aluOut with
      | some w => .next { s with mdr := w }
      | none => .fault (.outOfRange (.address s.aluOut) s) := by
  cases hm : memRead s s.aluOut <;> simp [memoryAccess, applying_of_none h, hr, hm, raise]

/-- R177 with `mem_write`. -/
theorem memoryAccess_write {sig : Signals} {s : State} (h : sig.badSelect = none) (hr : sig.memRead = false)
    (hw : sig.memWrite = true) :
    memoryAccess sig s =
      match memWrite s s.aluOut s.b with
      | some t => .next t
      | none => .fault (.outOfRange (.address s.aluOut) s) := by
  cases hm : memWrite s s.aluOut s.b <;> simp [memoryAccess, applying_of_none h, hr, hw, hm, raise]

/-- R177 with neither gate: a no-op. -/
theorem memoryAccess_none {sig : Signals} {s : State} (h : sig.badSelect = none) (hr : sig.memRead = false)
    (hw : sig.memWrite = false) : memoryAccess sig s = .next s := by
  simp [memoryAccess, applying_of_none h, hr, hw]

/-- R178 with the selectors resolved. -/
theorem writeBack_of_selected {sig : Signals} {f : Fields} {s : State} {dst : RegIdx} {data : Word}
    (h : sig.badSelect = none) (hd : destination s.cfg.selCode sig.regDst f = .ok dst) (hv : writeData sig.memToReg s = .ok data) :
    writeBack sig f s = .next { s with x := RegFile.write s.x sig.regWrite dst data } := by
  simp [writeBack, applying_of_none h, hd, hv]

/-- R178 with the gate off: a no-op. -/
theorem writeBack_off {sig : Signals} {f : Fields} {s : State} (h : sig.badSelect = none)
    (hd : sig.regDst = dstCode s.cfg.selCode .rt) (hm : sig.memToReg = dataCode s.cfg.selCode .aluOut)
    (hw : sig.regWrite = false) : writeBack sig f s = .next s := by
  rw [writeBack_of_selected (dst := f.rt) (data := s.aluOut) h (by rw [hd, destination_rt])
    (by rw [hm, writeData_aluOut])]
  simp [hw]

end Sys2Proof.Laws
end

