-- ==== Sys2Proof/Laws/Instr.lean ====
section
/-! SUPPORT. Laws/Instr.lean: everything one single-cycle instruction (43 R180) and one multi-cycle clock phase (R181) can do,
by class, and `exec` as the one shared operation. -/

namespace Sys2Proof.Laws

open Sys2Proof.Machine

/-- Every meaning is `runInstr` on its own word and class. -/
theorem exec_eq_runInstr (i : Instr) (s : State) : exec i s = runInstr (encode s.cfg.isa i) (classOf i) s := by
  cases i <;> rfl

theorem runInstr_single {s : State} (h : s.cfg.variant = .single) (w : Word) (c : InstrClass) :
    runInstr w c s = scInstr w c s := by
  simp [runInstr, h]

theorem runInstr_multi {s : State} (h : s.cfg.variant = .multi) (w : Word) (c : InstrClass) :
    runInstr w c s = mcInstr w c s := by
  simp [runInstr, h]

/-! ## Single-cycle -/

/-- The state of a single-cycle step when its execute phase begins: IR, PC, A, B and the flags of PC + 4 are written (R180). -/
def scBeforeExecute (w : Word) (c : InstrClass) (s : State) : State :=
  readRegisters (fields w)
    { s with ir := w, flags := aluFlags .add s.pc 4, pc := gated (scControl s.cfg c false).pcWrite (s.pc + 4) s.pc }

/-- The state of a single-cycle step when its memory phase begins: IR, PC, A, B, ALUOut and the flags are written (R180). -/
def scBeforeMemory (w : Word) (c : InstrClass) (s : State) : State :=
  executeAfter c (fields w) (scBeforeExecute w c s)

@[simp] theorem scBeforeMemory_cfg (w : Word) (c : InstrClass) (s : State) : (scBeforeMemory w c s).cfg = s.cfg := rfl
@[simp] theorem scBeforeMemory_x (w : Word) (c : InstrClass) (s : State) : (scBeforeMemory w c s).x = s.x := rfl
@[simp] theorem scBeforeMemory_ir (w : Word) (c : InstrClass) (s : State) : (scBeforeMemory w c s).ir = w := rfl
@[simp] theorem scBeforeMemory_a (w : Word) (c : InstrClass) (s : State) : (scBeforeMemory w c s).a = s.reg (rsOf w) := rfl
@[simp] theorem scBeforeMemory_b (w : Word) (c : InstrClass) (s : State) : (scBeforeMemory w c s).b = s.reg (rtOf w) := rfl
@[simp] theorem scBeforeMemory_mdr (w : Word) (c : InstrClass) (s : State) : (scBeforeMemory w c s).mdr = s.mdr := rfl
@[simp] theorem scBeforeMemory_mem (w : Word) (c : InstrClass) (s : State) : (scBeforeMemory w c s).mem = s.mem := rfl
@[simp] theorem scBeforeMemory_fsm (w : Word) (c : InstrClass) (s : State) : (scBeforeMemory w c s).fsm = s.fsm := rfl
@[simp] theorem scBeforeMemory_cycles (w : Word) (c : InstrClass) (s : State) :
    (scBeforeMemory w c s).cycles = s.cycles := rfl

/-- R180: fetch, decode, read and execute never fail, so a step is its memory and write-back phases. -/
theorem scInstr_eq (w : Word) (c : InstrClass) (s : State) :
    scInstr w c s =
      andThen (memoryAccess (scControl s.cfg c (scBeforeMemory w c s).flags.z) (scBeforeMemory w c s))
        (writeBack (scControl s.cfg c (scBeforeMemory w c s).flags.z) (fields w)) := by
  rw [scInstr, scPhases, applying_of_none (badSelect_scControl _ _ _), fetchAdvance_eq, andThen_next]
  change andThen (execute (scControl (scBeforeExecute w c s).cfg c) (fields w) (scBeforeExecute w c s)) _ = _
  rw [execute_scControl]
  rfl

/-- R200. -/
theorem scInstr_rType (w : Word) (op : AluOp) (s : State) :
    scInstr w (.rType op) s =
      .next { scBeforeMemory w (.rType op) s with
        x := RegFile.write s.x true (rdOf w) (scBeforeMemory w (.rType op) s).aluOut } := by
  rw [scInstr_eq, memoryAccess_none (badSelect_scControl _ _ _) rfl rfl]
  exact writeBack_of_selected (badSelect_scControl _ _ _) (destination_rd _ _) (writeData_aluOut _)

/-- R220. -/
theorem scInstr_iType (w : Word) (op : AluOp) (s : State) :
    scInstr w (.iType op) s =
      .next { scBeforeMemory w (.iType op) s with
        x := RegFile.write s.x true (rtOf w) (scBeforeMemory w (.iType op) s).aluOut } := by
  rw [scInstr_eq, memoryAccess_none (badSelect_scControl _ _ _) rfl rfl]
  exact writeBack_of_selected (badSelect_scControl _ _ _) (destination_rt _ _) (writeData_aluOut _)

/-- R231. -/
theorem scInstr_load (w : Word) (s : State) :
    scInstr w .load s =
      match memRead s (scBeforeMemory w .load s).aluOut with
      | some v => .next { scBeforeMemory w .load s with mdr := v, x := RegFile.write s.x true (rtOf w) v }
      | none => .fault (.outOfRange (.address (scBeforeMemory w .load s).aluOut) (scBeforeMemory w .load s)) := by
  rw [scInstr_eq, memoryAccess_read (badSelect_scControl _ _ _) rfl]
  have h : memRead (scBeforeMemory w .load s) (scBeforeMemory w .load s).aluOut =
      memRead s (scBeforeMemory w .load s).aluOut := rfl
  rw [h]
  cases memRead s (scBeforeMemory w .load s).aluOut with
  | none => rfl
  | some v => exact writeBack_of_selected (badSelect_scControl _ _ _) (destination_rt _ _) (writeData_mdr _)

/-- R232. -/
theorem scInstr_store (w : Word) (s : State) :
    scInstr w .store s =
      if cellIndex (scBeforeMemory w .store s).aluOut < s.cfg.memWords then
        .next { scBeforeMemory w .store s with
          mem := Memory.write s.mem (cellIndex (scBeforeMemory w .store s).aluOut) (s.reg (rtOf w)) }
      else .fault (.outOfRange (.address (scBeforeMemory w .store s).aluOut) (scBeforeMemory w .store s)) := by
  rw [scInstr_eq, memoryAccess_write (badSelect_scControl _ _ _) rfl rfl]
  by_cases h : cellIndex (scBeforeMemory w .store s).aluOut < s.cfg.memWords
  · rw [if_pos h, (memWrite_eq_some (s := scBeforeMemory w .store s)).mpr ⟨h, rfl⟩]
    exact writeBack_off (badSelect_scControl _ _ _) rfl rfl rfl
  · rw [if_neg h, (memWrite_eq_none (s := scBeforeMemory w .store s)).mpr (Nat.le_of_not_lt h)]
    rfl

/-- R240. -/
theorem scInstr_branch (w : Word) (sense : Sense) (s : State) :
    scInstr w (.branch sense) s = .next (scBeforeMemory w (.branch sense) s) := by
  rw [scInstr_eq, memoryAccess_none (badSelect_scControl _ _ _) rfl rfl]
  exact writeBack_off (badSelect_scControl _ _ _) rfl rfl rfl

/-- R245. -/
theorem scInstr_jump (w : Word) (s : State) :
    scInstr w (.jump false) s = .next (scBeforeMemory w (.jump false) s) := by
  rw [scInstr_eq, memoryAccess_none (badSelect_scControl _ _ _) rfl rfl]
  exact writeBack_off (badSelect_scControl _ _ _) rfl rfl rfl

/-- R246. -/
theorem scInstr_jumpLink (w : Word) (s : State) :
    scInstr w (.jump true) s =
      .next { scBeforeMemory w (.jump true) s with
        x := RegFile.write s.x true 31 (scBeforeMemory w (.jump true) s).aluOut } := by
  rw [scInstr_eq, memoryAccess_none (badSelect_scControl _ _ _) rfl rfl]
  exact writeBack_of_selected (badSelect_scControl _ _ _) (destination_link _ (fields w)) (writeData_aluOut _)

/-- R248. -/
theorem scInstr_halt (w : Word) (s : State) : scInstr w .halt s = .next (scBeforeMemory w .halt s) := by
  rw [scInstr_eq, memoryAccess_none (badSelect_scControl _ _ _) rfl rfl]
  exact writeBack_off (badSelect_scControl _ _ _) rfl rfl rfl

/-! ## Multi-cycle -/

/-- R154, R171. -/
theorem mcInstr_fetch {s : State} (h : s.fsm = .fetch) (w : Word) (c : InstrClass) :
    mcInstr w c s =
      .next { s with ir := w, pc := s.pc + 4, flags := aluFlags .add s.pc 4, fsm := .decode, cycles := s.cycles + 1 } := by
  simp only [mcInstr, h, mcControl, nextState, mcPhase_fetch, tick_next]

/-- R155, R174. -/
theorem mcInstr_decode {s : State} (h : s.fsm = .decode) (w : Word) (c : InstrClass) :
    mcInstr w c s =
      .next { s with a := s.reg (rsOf w), b := s.reg (rtOf w), fsm := .execute, cycles := s.cycles + 1 } := by
  simp [mcInstr, h, mcControl, nextState, mcPhase_decode, readRegisters, fields]

/-- R156, R175: EXECUTE completes for every class. -/
theorem mcInstr_execute {s : State} (h : s.fsm = .execute) (w : Word) (c : InstrClass) :
    mcInstr w c s =
      .next { executeAfter c (fields w) s with
        fsm := (nextState .execute c).getD .fetch, cycles := s.cycles + 1 } := by
  cases c <;> simp [mcInstr, h, mcControl, nextState, mcPhase, execute_executeVector, executeAfter]

/-- R157, R177, LOAD. -/
theorem mcInstr_memory_load {s : State} (h : s.fsm = .memory) (w : Word) :
    mcInstr w .load s =
      match memRead s s.aluOut with
      | some v => .next { s with mdr := v, fsm := .writeback, cycles := s.cycles + 1 }
      | none => .fault (.outOfRange (.address s.aluOut) s) := by
  simp only [mcInstr, h, mcControl, nextState, mcPhase]
  rw [memoryAccess_read (badSelect_of_codes rfl rfl rfl) rfl]
  cases memRead s s.aluOut <;> rfl

/-- R157, R177, STORE. -/
theorem mcInstr_memory_store {s : State} (h : s.fsm = .memory) (w : Word) :
    mcInstr w .store s =
      match memWrite s s.aluOut s.b with
      | some t => .next { t with fsm := .fetch, cycles := t.cycles + 1 }
      | none => .fault (.outOfRange (.address s.aluOut) s) := by
  simp only [mcInstr, h, mcControl, nextState, mcPhase]
  rw [memoryAccess_write (badSelect_of_codes rfl rfl rfl) rfl rfl]
  cases memWrite s s.aluOut s.b <;> rfl

/-- R161: `next_state` has no value exactly where `mc_control` has none. -/
theorem nextState_eq_none {cfg : Config} {p : Phase} {c : InstrClass} : nextState p c = none ↔ mcControl cfg p c = none := by
  rcases c with op | op | _ | _ | sense | link | _ <;> cases p <;> try simp [nextState, mcControl]
  all_goals cases link <;> simp

/-- The register and the value of a WRITEBACK phase, by class (R158); none where R152 has no vector. -/
def writebackOf (w : Word) (c : InstrClass) (s : State) : Option (RegIdx × Word) :=
  match c with
  | .rType _ => some (rdOf w, s.aluOut)
  | .iType _ => some (rtOf w, s.aluOut)
  | .load => some (rtOf w, s.mdr)
  | .jump true => some (31, s.aluOut)
  | .store | .branch _ | .jump false | .halt => none

/-- R151, R161: after a WRITEBACK that writes a register the FSM is in FETCH. -/
theorem nextState_writeback {w : Word} {c : InstrClass} {s : State} {dv : RegIdx × Word} (h : writebackOf w c s = some dv) :
    nextState .writeback c = some .fetch := by
  rcases c with op | op | _ | _ | sense | link | _ <;> simp_all [writebackOf, nextState]
  cases link <;> simp_all

/-- R158, R161, R178. -/
theorem mcInstr_writeback {s : State} (h : s.fsm = .writeback) (w : Word) (c : InstrClass) :
    mcInstr w c s =
      match writebackOf w c s with
      | some (d, v) => .next { s with x := RegFile.write s.x true d v, fsm := .fetch, cycles := s.cycles + 1 }
      | none => .refused (.unreachablePhase .writeback) := by
  rcases c with op | op | _ | _ | sense | link | _
  · simp only [mcInstr, h, mcControl, nextState, mcPhase, writebackOf]
    rw [writeBack_of_selected (badSelect_of_codes rfl rfl rfl) (destination_rd _ _) (writeData_aluOut _)]
    rfl
  · simp only [mcInstr, h, mcControl, nextState, mcPhase, writebackOf]
    rw [writeBack_of_selected (badSelect_of_codes rfl rfl rfl) (destination_rt _ _) (writeData_aluOut _)]
    rfl
  · simp only [mcInstr, h, mcControl, nextState, mcPhase, writebackOf]
    rw [writeBack_of_selected (badSelect_of_codes rfl rfl rfl) (destination_rt _ _) (writeData_mdr _)]
    rfl
  · simp [mcInstr, h, mcControl, writebackOf]
  · simp [mcInstr, h, mcControl, writebackOf]
  · cases link
    · simp [mcInstr, h, mcControl, writebackOf]
    · simp only [mcInstr, h, mcControl, nextState, mcPhase, writebackOf]
      rw [writeBack_of_selected (badSelect_of_codes rfl rfl rfl) (destination_link _ (fields w)) (writeData_aluOut _)]
      rfl
  · simp [mcInstr, h, mcControl, writebackOf]

/-- R161: MEMORY under a class that is neither LOAD nor STORE. -/
theorem mcInstr_memory_refused {s : State} (h : s.fsm = .memory) (w : Word) {c : InstrClass} (hl : c ≠ .load)
    (hs : c ≠ .store) : mcInstr w c s = .refused (.unreachablePhase .memory) := by
  cases c <;> simp_all [mcInstr, mcControl]

end Sys2Proof.Laws
end

