-- ==== Sys2Proof/Laws/PerInstr.lean ====
section
/-! SUPPORT. Laws/PerInstr.lean: the per-instruction family OpcodeRow: the word of every instruction matches its row of
spec/opcode_table.json (`word AND mask = match`). -/

namespace Sys2Proof.Laws

/-- The "mask" column of spec/opcode_table.json. -/
def OpcodeRow.mask : Instr → Word
  | .add _ _ _ _ => 0xFC00003F
  | .sub _ _ _ _ => 0xFC00003F
  | .and _ _ _ _ => 0xFC00003F
  | .or _ _ _ _ => 0xFC00003F
  | .xor _ _ _ _ => 0xFC00003F
  | .sll _ _ _ _ => 0xFC00003F
  | .srl _ _ _ _ => 0xFC00003F
  | .sra _ _ _ _ => 0xFC00003F
  | .slt _ _ _ _ => 0xFC00003F
  | .addi _ _ _ => 0xFC000000
  | .slti _ _ _ => 0xFC000000
  | .andi _ _ _ => 0xFC000000
  | .ori _ _ _ => 0xFC000000
  | .xori _ _ _ => 0xFC000000
  | .lw _ _ _ => 0xFC000000
  | .sw _ _ _ => 0xFC000000
  | .beq _ _ _ => 0xFC000000
  | .bne _ _ _ => 0xFC000000
  | .j _ => 0xFC000000
  | .jal _ => 0xFC000000
  | .halt _ => 0xFC000000

/-- The "match" column of spec/opcode_table.json. -/
def OpcodeRow.pattern : Instr → Word
  | .add _ _ _ _ => 0x00000020
  | .sub _ _ _ _ => 0x00000022
  | .and _ _ _ _ => 0x00000024
  | .or _ _ _ _ => 0x00000025
  | .xor _ _ _ _ => 0x00000026
  | .sll _ _ _ _ => 0x00000000
  | .srl _ _ _ _ => 0x00000002
  | .sra _ _ _ _ => 0x00000003
  | .slt _ _ _ _ => 0x0000002A
  | .addi _ _ _ => 0x20000000
  | .slti _ _ _ => 0x28000000
  | .andi _ _ _ => 0x30000000
  | .ori _ _ _ => 0x34000000
  | .xori _ _ _ => 0x38000000
  | .lw _ _ _ => 0x8C000000
  | .sw _ _ _ => 0xAC000000
  | .beq _ _ _ => 0x10000000
  | .bne _ _ _ => 0x14000000
  | .j _ => 0x08000000
  | .jal _ => 0x0C000000
  | .halt _ => 0xFC000000

/-- Under the spec's own ISA_TABLE the instruction's word matches its row of the opcode table. -/
def OpcodeRow.Statement (i : Instr) : Prop := encode IsaTable.standard i &&& OpcodeRow.mask i = OpcodeRow.pattern i

theorem OpcodeRow.add (rd rs rt shamt : RegIdx) : OpcodeRow.Statement (.add rd rs rt shamt) := encodeR_mask _ _ _ _ _ _
theorem OpcodeRow.sub (rd rs rt shamt : RegIdx) : OpcodeRow.Statement (.sub rd rs rt shamt) := encodeR_mask _ _ _ _ _ _
theorem OpcodeRow.and (rd rs rt shamt : RegIdx) : OpcodeRow.Statement (.and rd rs rt shamt) := encodeR_mask _ _ _ _ _ _
theorem OpcodeRow.or (rd rs rt shamt : RegIdx) : OpcodeRow.Statement (.or rd rs rt shamt) := encodeR_mask _ _ _ _ _ _
theorem OpcodeRow.xor (rd rs rt shamt : RegIdx) : OpcodeRow.Statement (.xor rd rs rt shamt) := encodeR_mask _ _ _ _ _ _
theorem OpcodeRow.sll (rd rs rt shamt : RegIdx) : OpcodeRow.Statement (.sll rd rs rt shamt) := encodeR_mask _ _ _ _ _ _
theorem OpcodeRow.srl (rd rs rt shamt : RegIdx) : OpcodeRow.Statement (.srl rd rs rt shamt) := encodeR_mask _ _ _ _ _ _
theorem OpcodeRow.sra (rd rs rt shamt : RegIdx) : OpcodeRow.Statement (.sra rd rs rt shamt) := encodeR_mask _ _ _ _ _ _
theorem OpcodeRow.slt (rd rs rt shamt : RegIdx) : OpcodeRow.Statement (.slt rd rs rt shamt) := encodeR_mask _ _ _ _ _ _
theorem OpcodeRow.addi (rt rs : RegIdx) (imm : BitVec 16) : OpcodeRow.Statement (.addi rt rs imm) := encodeI_mask _ _ _ _
theorem OpcodeRow.slti (rt rs : RegIdx) (imm : BitVec 16) : OpcodeRow.Statement (.slti rt rs imm) := encodeI_mask _ _ _ _
theorem OpcodeRow.andi (rt rs : RegIdx) (imm : BitVec 16) : OpcodeRow.Statement (.andi rt rs imm) := encodeI_mask _ _ _ _
theorem OpcodeRow.ori (rt rs : RegIdx) (imm : BitVec 16) : OpcodeRow.Statement (.ori rt rs imm) := encodeI_mask _ _ _ _
theorem OpcodeRow.xori (rt rs : RegIdx) (imm : BitVec 16) : OpcodeRow.Statement (.xori rt rs imm) := encodeI_mask _ _ _ _
theorem OpcodeRow.lw (rt rs : RegIdx) (imm : BitVec 16) : OpcodeRow.Statement (.lw rt rs imm) := encodeI_mask _ _ _ _
theorem OpcodeRow.sw (rt rs : RegIdx) (imm : BitVec 16) : OpcodeRow.Statement (.sw rt rs imm) := encodeI_mask _ _ _ _
theorem OpcodeRow.beq (rs rt : RegIdx) (imm : BitVec 16) : OpcodeRow.Statement (.beq rs rt imm) := encodeI_mask _ _ _ _
theorem OpcodeRow.bne (rs rt : RegIdx) (imm : BitVec 16) : OpcodeRow.Statement (.bne rs rt imm) := encodeI_mask _ _ _ _
theorem OpcodeRow.j (address : BitVec 26) : OpcodeRow.Statement (.j address) := encodeJ_mask _ _
theorem OpcodeRow.jal (address : BitVec 26) : OpcodeRow.Statement (.jal address) := encodeJ_mask _ _
theorem OpcodeRow.halt (ignored : BitVec 26) : OpcodeRow.Statement (.halt ignored) := encodeJ_mask _ _

end Sys2Proof.Laws
end

