-- ==== Sys2Proof/Laws/Step.lean ====
section
/-! SUPPORT. Laws/Step.lean: what one step can do, in terms of the word in force and its class; every later lemma about
`step` goes through these instead of unfolding it. The meanings rebuild their word with `encode`, so what is said of the word in
force needs that decoding drops no bit: that is a statement for the provers (EncodeDecode), and stands here as the
hypothesis `henc`. -/

namespace Sys2Proof.Laws

open Sys2Proof.Machine

theorem classify_eq_ok {t : IsaTable} {w : Word} {c : InstrClass} :
    classify t w = .ok c ↔ ∃ i, decode t w = .ok i ∧ classOf i = c := by
  unfold classify
  cases decode t w with
  | error e => simp [Except.map]
  | ok i => simp [Except.map]

theorem classify_eq_error {t : IsaTable} {w : Word} {e : DecodeReject} :
    classify t w = .error e ↔ decode t w = .error e := by
  unfold classify
  cases decode t w <;> simp [Except.map]

/-- R269: no word to work on. -/
theorem step_of_none {s : State} (h : wordInForce s = none) : step s = .fault (.outOfRange (.address s.pc) s) := by
  simp [step, h, raise]

/-- R86: the word in force is no instruction. -/
theorem step_of_illegal {s : State} {w : Word} {e : DecodeReject} (h : wordInForce s = some w)
    (hc : classify s.cfg.isa w = .error e) : step s = runIllegal w s := by
  simp [step, h, classify_eq_error.mp hc]

/-- The word in force is an instruction of class `c`. -/
theorem step_of_class (henc : ∀ (t : IsaTable) (w : Word) (i : Instr), decode t w = .ok i → encode t i = w) {s : State} {w : Word}
    {c : InstrClass} (h : wordInForce s = some w) (hc : classify s.cfg.isa w = .ok c) :
    step s = runInstr w c s := by
  obtain ⟨i, hi, rfl⟩ := classify_eq_ok.mp hc
  simp [step, h, hi, exec_eq_runInstr, henc _ w i hi]

/-- A completed single-cycle step has read an instruction at PC and run it. -/
theorem step_single_next (henc : ∀ (t : IsaTable) (w : Word) (i : Instr), decode t w = .ok i → encode t i = w) {s t : State}
    (hv : s.cfg.variant = .single) (h : step s = .next t) :
    ∃ w c, memRead s s.pc = some w ∧ classify s.cfg.isa w = .ok c ∧ scInstr w c s = .next t := by
  have hw : wordInForce s = memRead s s.pc := by simp [wordInForce, hv]
  cases hm : memRead s s.pc with
  | none => rw [step_of_none (hw.trans hm)] at h; cases h
  | some w =>
    cases hc : classify s.cfg.isa w with
    | error e => rw [step_of_illegal (hw.trans hm) hc] at h; simp [runIllegal, hv, raise] at h
    | ok c =>
      rw [step_of_class henc (hw.trans hm) hc, runInstr_single hv] at h
      exact ⟨w, c, rfl, hc, h⟩

/-- A completed multi-cycle step is one phase: FETCH and DECODE for any word, a later phase for an instruction of the class
that R152 gives a vector for in that phase. -/
theorem step_multi_next (henc : ∀ (t : IsaTable) (w : Word) (i : Instr), decode t w = .ok i → encode t i = w) {s t : State}
    (hv : s.cfg.variant = .multi) (h : step s = .next t) :
    (∃ w, s.fsm = .fetch ∧ memRead s s.pc = some w ∧
      t = { s with ir := w, pc := s.pc + 4, flags := aluFlags .add s.pc 4, fsm := .decode, cycles := s.cycles + 1 }) ∨
    (s.fsm = .decode ∧
      t = { s with a := s.reg (rsOf s.ir), b := s.reg (rtOf s.ir), fsm := .execute, cycles := s.cycles + 1 }) ∨
    ∃ c, classify s.cfg.isa s.ir = .ok c ∧
      ((s.fsm = .execute ∧
          t = { executeAfter c (fields s.ir) s with fsm := (nextState .execute c).getD .fetch, cycles := s.cycles + 1 }) ∨
        (s.fsm = .memory ∧ c = .load ∧ ∃ v, memRead s s.aluOut = some v ∧
          t = { s with mdr := v, fsm := .writeback, cycles := s.cycles + 1 }) ∨
        (s.fsm = .memory ∧ c = .store ∧ cellIndex s.aluOut < s.cfg.memWords ∧
          t = { s with mem := Memory.write s.mem (cellIndex s.aluOut) s.b, fsm := .fetch, cycles := s.cycles + 1 }) ∨
        (s.fsm = .writeback ∧ ∃ d v, writebackOf s.ir c s = some (d, v) ∧
          t = { s with x := RegFile.write s.x true d v, fsm := .fetch, cycles := s.cycles + 1 })) := by
  by_cases hf : s.fsm = .fetch
  · have hw : wordInForce s = memRead s s.pc := by simp [wordInForce, hv, hf]
    refine .inl ?_
    cases hm : memRead s s.pc with
    | none => rw [step_of_none (hw.trans hm)] at h; cases h
    | some w =>
      refine ⟨w, hf, rfl, ?_⟩
      cases hc : classify s.cfg.isa w with
      | error e =>
        rw [step_of_illegal (hw.trans hm) hc] at h
        simpa [runIllegal, hv, hf, eq_comm] using h
      | ok c =>
        rw [step_of_class henc (hw.trans hm) hc, runInstr_multi hv, mcInstr_fetch hf] at h
        simpa [eq_comm] using h
  · have hw : wordInForce s = some s.ir := by
      cases hp : s.fsm <;> simp_all [wordInForce]
    refine .inr ?_
    cases hc : classify s.cfg.isa s.ir with
    | error e =>
      rw [step_of_illegal hw hc] at h
      cases hp : s.fsm with
      | fetch => exact absurd hp hf
      | decode =>
        refine .inl ⟨rfl, ?_⟩
        simpa [runIllegal, hv, hp, mcPhase_decode, readRegisters, fields, eq_comm] using h
      | execute => simp [runIllegal, hv, hp, raise] at h
      | memory => simp [runIllegal, hv, hp, raise] at h
      | writeback => simp [runIllegal, hv, hp, raise] at h
    | ok c =>
      rw [step_of_class henc hw hc, runInstr_multi hv] at h
      cases hp : s.fsm with
      | fetch => exact absurd hp hf
      | decode => rw [mcInstr_decode hp] at h; exact .inl ⟨rfl, by simpa [eq_comm] using h⟩
      | execute => rw [mcInstr_execute hp] at h; exact .inr ⟨c, rfl, .inl ⟨rfl, by simpa [eq_comm] using h⟩⟩
      | memory =>
        refine .inr ⟨c, rfl, .inr ?_⟩
        by_cases hl : c = .load
        · subst hl
          rw [mcInstr_memory_load hp] at h
          cases hm : memRead s s.aluOut with
          | none => rw [hm] at h; cases h
          | some v =>
            rw [hm] at h
            exact .inl ⟨rfl, rfl, v, rfl, by simpa [eq_comm] using h⟩
        · by_cases hs : c = .store
          · subst hs
            rw [mcInstr_memory_store hp] at h
            cases hm : memWrite s s.aluOut s.b with
            | none => rw [hm] at h; cases h
            | some u =>
              rw [hm] at h
              obtain ⟨hlt, rfl⟩ := memWrite_eq_some.mp hm
              exact .inr (.inl ⟨rfl, rfl, hlt, by simpa [eq_comm] using h⟩)
          · rw [mcInstr_memory_refused hp _ hl hs] at h; cases h
      | writeback =>
        refine .inr ⟨c, rfl, .inr (.inr (.inr ⟨rfl, ?_⟩))⟩
        rw [mcInstr_writeback hp] at h
        cases hwb : writebackOf s.ir c s with
        | none => rw [hwb] at h; cases h
        | some dv =>
          rw [hwb] at h
          exact ⟨dv.1, dv.2, rfl, by simpa [eq_comm] using h⟩

/-- Everything one single-cycle instruction can leave, by class: the state before its memory phase, and then at most one more
write. -/
theorem scInstr_next {w : Word} {c : InstrClass} {s t : State} (h : scInstr w c s = .next t) :
    ((∃ op, c = .rType op) ∧
      t = { scBeforeMemory w c s with x := RegFile.write s.x true (rdOf w) (scBeforeMemory w c s).aluOut }) ∨
    ((∃ op, c = .iType op) ∧
      t = { scBeforeMemory w c s with x := RegFile.write s.x true (rtOf w) (scBeforeMemory w c s).aluOut }) ∨
    (c = .load ∧ ∃ v, memRead s (scBeforeMemory w c s).aluOut = some v ∧
      t = { scBeforeMemory w c s with mdr := v, x := RegFile.write s.x true (rtOf w) v }) ∨
    (c = .store ∧ cellIndex (scBeforeMemory w c s).aluOut < s.cfg.memWords ∧
      t = { scBeforeMemory w c s with
        mem := Memory.write s.mem (cellIndex (scBeforeMemory w c s).aluOut) (s.reg (rtOf w)) }) ∨
    (c = .jump true ∧
      t = { scBeforeMemory w c s with x := RegFile.write s.x true 31 (scBeforeMemory w c s).aluOut }) ∨
    (((∃ sense, c = .branch sense) ∨ c = .jump false ∨ c = .halt) ∧ t = scBeforeMemory w c s) := by
  rcases c with op | op | _ | _ | sense | link | _
  · rw [scInstr_rType] at h; cases h; exact .inl ⟨⟨op, rfl⟩, rfl⟩
  · rw [scInstr_iType] at h; cases h; exact .inr (.inl ⟨⟨op, rfl⟩, rfl⟩)
  · rw [scInstr_load] at h
    cases hm : memRead s (scBeforeMemory w .load s).aluOut with
    | none => rw [hm] at h; cases h
    | some v => rw [hm] at h; cases h; exact .inr (.inr (.inl ⟨rfl, v, rfl, rfl⟩))
  · rw [scInstr_store] at h
    by_cases hm : cellIndex (scBeforeMemory w .store s).aluOut < s.cfg.memWords
    · rw [if_pos hm] at h; cases h; exact .inr (.inr (.inr (.inl ⟨rfl, hm, rfl⟩)))
    · rw [if_neg hm] at h; cases h
  · rw [scInstr_branch] at h; cases h; exact .inr (.inr (.inr (.inr (.inr ⟨.inl ⟨sense, rfl⟩, rfl⟩))))
  · cases link
    · rw [scInstr_jump] at h; cases h; exact .inr (.inr (.inr (.inr (.inr ⟨.inr (.inl rfl), rfl⟩))))
    · rw [scInstr_jumpLink] at h; cases h; exact .inr (.inr (.inr (.inr (.inl ⟨rfl, rfl⟩))))
  · rw [scInstr_halt] at h; cases h; exact .inr (.inr (.inr (.inr (.inr ⟨.inr (.inr rfl), rfl⟩))))

/-! ## Memory operations keep the canonical form -/

/-- R53. -/
theorem memWrite_wf {s t : State} {addr v : Word} (h : Memory.wf s.mem = true) (hw : memWrite s addr v = some t) :
    Memory.wf t.mem = true := by
  obtain ⟨_, rfl⟩ := memWrite_eq_some.mp hw
  exact Memory.wf_write h _ _

/-- Placing a word keeps it too. -/
theorem withFetchWord_wf {s : State} (h : Memory.wf s.mem = true) (nbits w : Nat) :
    Memory.wf (s.withFetchWord nbits w).mem = true := by
  unfold State.withFetchWord
  split
  · exact memWrite_wf h ‹_›
  · rename_i s1 hw _
    exact memWrite_wf (t := s1) h hw
  · exact h

/-- R302. -/
theorem loadWords_wf {ws : List Int} {start : Word} {s t : State} (h : Memory.wf s.mem = true)
    (hl : loadWords start ws s = .next t) : Memory.wf t.mem = true := by
  induction ws generalizing start s with
  | nil => cases hl; exact h
  | cons v rest ih =>
    unfold loadWords at hl
    cases hm : memWrite s start (trunc32 v) with
    | none => rw [hm] at hl; cases hl
    | some u => rw [hm] at hl; exact ih (memWrite_wf h hm) hl

/-- R293: nothing is listed after power-on. -/
theorem powerOn_mem_wf (c : Config) : Memory.wf (State.powerOn c).mem = true := rfl

theorem reset_mem_wf : Memory.wf State.reset.mem = true := rfl

end Sys2Proof.Laws
end

