-- ==== Sys2Proof/WellFormed.lean ====
section
/-! DEFINITION. WellFormed.lean: the assembler's form of an instruction (30_encoding.md R84, R92): the
fields that select nothing are zero. The widths of all other operands are the fields' own types. THE HARDWARE DOES
NOT CHECK THIS: "any value is accepted and the behaviour is the same" (R85), so no meaning, no decoder and no
statement about execution assumes it. -/

namespace Sys2Proof

/-- R92: "`shamt` = 0" in the R_TYPE forms, and HALT has "all other bits 0: 0xFC000000". -/
def Instr.wellFormed : Instr → Bool
  | .add _ _ _ shamt | .sub _ _ _ shamt | .and _ _ _ shamt | .or _ _ _ shamt | .xor _ _ _ shamt
  | .sll _ _ _ shamt | .srl _ _ _ shamt | .sra _ _ _ shamt | .slt _ _ _ shamt => shamt == 0
  | .addi _ _ _ | .slti _ _ _ | .andi _ _ _ | .ori _ _ _ | .xori _ _ _ => true
  | .lw _ _ _ | .sw _ _ _ | .beq _ _ _ | .bne _ _ _ | .j _ | .jal _ => true
  | .halt ignored => ignored == 0

end Sys2Proof
end

