-- ==== Sys2Proof/Tests/Slice0.lean ====
section
/-! SUPPORT. Tests/Slice0.lean: the model held against the spec's own vectors (95_test_vectors.md; the id of a row
stands in each docstring), one word of each instruction written out bit by bit from 30_encoding.md, and for each statement with
hypotheses a concrete state that meets them. -/

namespace Sys2Proof.Tests

open Sys2Proof.Machine

/-! ## Decoding: the words bit by bit, `opcode rs rt rd shamt funct`, `opcode rs rt immediate`, `opcode address` -/

theorem test_decode_add : decode .standard 0b000000_00001_00010_00011_00000_100000 = .ok (.add 3 1 2 0) := by decide
theorem test_decode_sub : decode .standard 0b000000_00001_00010_00011_00000_100010 = .ok (.sub 3 1 2 0) := by decide
theorem test_decode_and : decode .standard 0b000000_00001_00010_00011_00000_100100 = .ok (.and 3 1 2 0) := by decide
theorem test_decode_or : decode .standard 0b000000_00001_00010_00011_00000_100101 = .ok (.or 3 1 2 0) := by decide
theorem test_decode_xor : decode .standard 0b000000_00001_00010_00011_00000_100110 = .ok (.xor 3 1 2 0) := by decide
theorem test_decode_sll : decode .standard 0b000000_00001_00010_00011_00100_000000 = .ok (.sll 3 1 2 4) := by decide
theorem test_decode_srl : decode .standard 0b000000_00001_00010_00011_00000_000010 = .ok (.srl 3 1 2 0) := by decide
theorem test_decode_sra : decode .standard 0b000000_00001_00010_00011_11111_000011 = .ok (.sra 3 1 2 31) := by decide
theorem test_decode_slt : decode .standard 0b000000_00001_00010_00011_00000_101010 = .ok (.slt 3 1 2 0) := by decide
theorem test_decode_addi : decode .standard 0b001000_00001_00010_1111111111111100 = .ok (.addi 2 1 0xFFFC) := by decide
theorem test_decode_slti : decode .standard 0b001010_00001_00010_1111111111111111 = .ok (.slti 2 1 0xFFFF) := by decide
theorem test_decode_andi : decode .standard 0b001100_00001_00010_1000000000000000 = .ok (.andi 2 1 0x8000) := by decide
theorem test_decode_ori : decode .standard 0b001101_00000_00001_1000000000000000 = .ok (.ori 1 0 0x8000) := by decide
theorem test_decode_xori : decode .standard 0b001110_00001_00010_1111111111111111 = .ok (.xori 2 1 0xFFFF) := by decide
theorem test_decode_lw : decode .standard 0b100011_00001_00010_1111111111111100 = .ok (.lw 2 1 0xFFFC) := by decide
theorem test_decode_sw : decode .standard 0b101011_00001_00010_0000000000010000 = .ok (.sw 2 1 0x0010) := by decide
theorem test_decode_beq : decode .standard 0b000100_00001_00010_0000000000010000 = .ok (.beq 1 2 0x0010) := by decide
theorem test_decode_bne : decode .standard 0b000101_00001_00010_1111111111111100 = .ok (.bne 1 2 0xFFFC) := by decide
theorem test_decode_j : decode .standard 0b000010_11111111111111111111111111 = .ok (.j 0x3FFFFFF) := by decide
theorem test_decode_jal : decode .standard 0b000011_00000000000000000000010000 = .ok (.jal 0x10) := by decide
theorem test_decode_halt : decode .standard 0b111111_00001000100001001000110100 = .ok (.halt 0x221234) := by decide

/-- K22 to K31: words of no instruction, each side of the tables. -/
theorem test_decode_illegal :
    ([0x04000000, 0x00000001, 0x00000008, 0x0000000C, 0x00000021, 0x0000002B, 0x3C000000, 0x24000000, 0x80000000,
      0xF8000000] : List Word).map (fun w => (decode .standard w).toOption) = List.replicate 10 none := by decide

/-- K1 to K21. -/
theorem test_classify :
    ([0x20, 0x22, 0x24, 0x25, 0x26, 0x00, 0x02, 0x03, 0x2A, 0x20000000, 0x28000000, 0x30000000, 0x34000000, 0x38000000,
      0x8C000000, 0xAC000000, 0x10000000, 0x14000000, 0x08000000, 0x0C000000, 0xFC000000] : List Word).map
        (fun w => (classify .standard w).toOption) =
    ([.rType .add, .rType .sub, .rType .and, .rType .or, .rType .xor, .rType .sll, .rType .srl, .rType .sra, .rType .slt,
      .iType .add, .iType .slt, .iType .and, .iType .or, .iType .xor, .load, .store, .branch .equal, .branch .notEqual,
      .jump false, .jump true, .halt] : List InstrClass).map some := by decide

/-- E1. -/
theorem test_fields : fields 0x8C41FFFC =
    { opcode := 0x23, rs := 2, rt := 1, rd := 31, shamt := 31, funct := 0x3C, imm := 0xFFFFFFFC, address := 0x041FFFC } := by
  decide

/-! ## WellFormed: an ill-formed term for each check -/

theorem test_wf_refuses_shamt :
    [Instr.add 1 2 3 1, .sub 1 2 3 1, .and 1 2 3 1, .or 1 2 3 1, .xor 1 2 3 1, .sll 1 2 3 1, .srl 1 2 3 1, .sra 1 2 3 31,
      .slt 1 2 3 16].map Instr.wellFormed = List.replicate 9 false := by decide

theorem test_wf_refuses_halt_bits : Instr.wellFormed (.halt 1) = false := by decide

theorem test_wf_accepts :
    [Instr.add 1 2 3 0, .slt 31 31 31 0, .addi 1 2 0xFFFF, .lw 0 0 0, .j 0x3FFFFFF, .halt 0].map Instr.wellFormed =
      List.replicate 6 true := by decide

/-! ## States and views -/

/-- The start of a step vector (95_test_vectors.md, Conventions): reset state with `x[1]`, `x[2]`, some memory and the word at
byte address 0x20, PC there, MEM_WORDS 1024. -/
def start (v : Variant) (x1 x2 : Word) (m : Memory) (w : Word) : State :=
  { State.powerOn { variant := v, memWords := 1024 } with
    x := ((Vector.replicate 32 0).set 1 x1).set 2 x2
    pc := 0x20
    mem := Memory.write m 8 w }

/-- The same machine in a later clock phase, with the word latched and A, B loaded. -/
def late (p : Phase) (x1 x2 : Word) (w aluOut : Word) : State :=
  { start .multi x1 x2 [(0x40, 0xCAFEF00D)] w with fsm := p, ir := w, pc := 0x24, a := x1, b := x2, aluOut := aluOut }

/-- What a step vector lists: the register `d`, then PC, A, B, ALUOut, MDR; and Z, N, V. -/
def seen (d : RegIdx) (r : Res) : Option (List Word × List Bool) :=
  match r with
  | .next t => some ([t.reg d, t.pc, t.a, t.b, t.aluOut, t.mdr], [t.flags.z, t.flags.n, t.flags.v])
  | _ => none

/-- The cell `k` after a step. -/
def seenCell (k : Nat) (r : Res) : Option Word :=
  match r with
  | .next t => some (Memory.read t.mem k)
  | _ => none

/-- The FSM state and the counter after a step. -/
def seenPhase (r : Res) : Option (Phase × Nat) :=
  match r with
  | .next t => some (t.fsm, t.cycles)
  | _ => none

/-- The error of a step. -/
def seenFault (r : Res) : Option Fault :=
  match r with
  | .fault f => some f
  | _ => none

/-- The state after a step. -/
def seenState (r : Res) : Option State :=
  match r with
  | .next t => some t
  | _ => none

/-! ## One step of each instruction -/

/-- T2 -/
theorem test_add : seen 3 (step (start .single 0x7FFFFFFF 1 [] 0x00221820)) =
    some ([0x80000000, 0x24, 0x7FFFFFFF, 1, 0x80000000, 0], [false, true, true]) := by decide
/-- R178: `rd` receives ALUOut in WRITEBACK. -/
theorem test_add_writeback : seen 3 (step (late .writeback 10 20 0x00221820 0x1E)) =
    some ([0x1E, 0x24, 10, 20, 0x1E, 0], [false, false, false]) := by decide
/-- T4 -/
theorem test_sub : seen 3 (step (start .single 10 20 [] 0x00221822)) =
    some ([0xFFFFFFF6, 0x24, 10, 20, 0xFFFFFFF6, 0], [false, true, false]) := by decide
/-- T5 -/
theorem test_sub_overflow : seen 3 (step (start .single 0x80000000 1 [] 0x00221822)) =
    some ([0x7FFFFFFF, 0x24, 0x80000000, 1, 0x7FFFFFFF, 0], [false, false, true]) := by decide
/-- T6 -/
theorem test_and : seen 3 (step (start .single 0xF0F0F0F0 0x0F0F0F0F [] 0x00221824)) =
    some ([0, 0x24, 0xF0F0F0F0, 0x0F0F0F0F, 0, 0], [true, false, false]) := by decide
/-- T7 -/
theorem test_or : seen 3 (step (start .single 0xF0F0F0F0 0x0F0F0F0F [] 0x00221825)) =
    some ([0xFFFFFFFF, 0x24, 0xF0F0F0F0, 0x0F0F0F0F, 0xFFFFFFFF, 0], [false, true, false]) := by decide
/-- T8 -/
theorem test_xor : seen 3 (step (start .single 0x12345678 0 [] 0x00211826)) =
    some ([0, 0x24, 0x12345678, 0x12345678, 0, 0], [true, false, false]) := by decide
/-- T10: `shamt` ignored. -/
theorem test_sll_shamt : seen 3 (step (start .single 1 1 [] 0x00221900)) =
    some ([2, 0x24, 1, 1, 2, 0], [false, false, false]) := by decide
/-- T11: amount 33 acts as 1. -/
theorem test_sll : seen 3 (step (start .single 0x12345678 33 [] 0x00221800)) =
    some ([0x2468ACF0, 0x24, 0x12345678, 0x21, 0x2468ACF0, 0], [false, false, false]) := by decide
/-- T12 -/
theorem test_srl : seen 3 (step (start .single 0x80000000 4 [] 0x00221802)) =
    some ([0x08000000, 0x24, 0x80000000, 4, 0x08000000, 0], [false, false, false]) := by decide
/-- T13 -/
theorem test_sra : seen 3 (step (start .single 0x80000000 4 [] 0x00221803)) =
    some ([0xF8000000, 0x24, 0x80000000, 4, 0xF8000000, 0], [false, true, false]) := by decide
/-- T14 -/
theorem test_slt : seen 3 (step (start .single 0xFFFFFFFF 1 [] 0x0022182A)) =
    some ([1, 0x24, 0xFFFFFFFF, 1, 1, 0], [false, false, false]) := by decide
/-- T17: B is `x[rt]` as read before the write. -/
theorem test_addi : seen 2 (step (start .single 10 0 [] 0x2022FFFC)) =
    some ([6, 0x24, 10, 0, 6, 0], [false, false, false]) := by decide
/-- T19 -/
theorem test_slti : seen 2 (step (start .single 0xFFFFFFFE 0 [] 0x2822FFFF)) =
    some ([1, 0x24, 0xFFFFFFFE, 0, 1, 0], [false, false, false]) := by decide
/-- T21: the immediate is sign-extended. -/
theorem test_andi : seen 2 (step (start .single 0xFFFF0F0F 0 [] 0x30228000)) =
    some ([0xFFFF0000, 0x24, 0xFFFF0F0F, 0, 0xFFFF0000, 0], [false, true, false]) := by decide
/-- T23 -/
theorem test_ori : seen 1 (step (start .single 0 0 [] 0x34018000)) =
    some ([0xFFFF8000, 0x24, 0, 0, 0xFFFF8000, 0], [false, true, false]) := by decide
/-- T25 -/
theorem test_xori : seen 2 (step (start .single 0x0000FFFF 0 [] 0x3822FFFF)) =
    some ([0xFFFF0000, 0x24, 0x0000FFFF, 0, 0xFFFF0000, 0], [false, true, false]) := by decide
/-- T27: address 0x103 reads the cell of 0x100. -/
theorem test_lw : seen 2 (step (start .single 0x100 0 [(0x40, 0xCAFEF00D)] 0x8C220003)) =
    some ([0xCAFEF00D, 0x24, 0x100, 0, 0x103, 0xCAFEF00D], [false, false, false]) := by decide
/-- T45 -/
theorem test_lw_outside : seenFault (step (start .single 0x1000 0 [] 0x8C220000)) =
    some (.outOfRange (.address 0x1000)
      { start .single 0x1000 0 [] 0x8C220000 with ir := 0x8C220000, pc := 0x24, a := 0x1000, aluOut := 0x1000 }) := by
  decide
/-- T29 -/
theorem test_sw : seenCell 0x44 (step (start .single 0x100 0xABCD1234 [] 0xAC220010)) = some 0xABCD1234 := by decide
/-- T47 -/
theorem test_sw_outside : seenFault (step (start .single 0 7 [] 0xAC22FFFC)) =
    some (.outOfRange (.address 0xFFFFFFFC)
      { start .single 0 7 [] 0xAC22FFFC with
        ir := 0xAC22FFFC, pc := 0x24, b := 7, aluOut := 0xFFFFFFFC, flags := { z := false, n := true, v := false } }) := by
  decide
/-- T33 -/
theorem test_beq_taken : seen 3 (step (start .single 5 5 [] 0x10220010)) =
    some ([0, 0x64, 5, 5, 0, 0], [true, false, false]) := by decide
/-- T34 -/
theorem test_beq_not_taken : seen 3 (step (start .single 5 6 [] 0x10220010)) =
    some ([0, 0x24, 5, 6, 0xFFFFFFFF, 0], [false, true, false]) := by decide
/-- T36 -/
theorem test_bne_taken : seen 3 (step (start .single 5 6 [] 0x1422FFFC)) =
    some ([0, 0x14, 5, 6, 0xFFFFFFFF, 0], [false, true, false]) := by decide
/-- T37 -/
theorem test_bne_not_taken : seen 3 (step (start .single 5 5 [] 0x1422FFFC)) =
    some ([0, 0x24, 5, 5, 0, 0], [true, false, false]) := by decide
/-- T38: `rs` and `rt` of the word are both 31. -/
theorem test_j : seen 1 (step { start .single 0 0 [] 0x0BFFFFFF with x := (Vector.replicate 32 0).set 31 0x77 }) =
    some ([0, 0x0FFFFFFC, 0x77, 0x77, 0xEE, 0], [false, false, false]) := by decide
/-- T31, single-cycle. -/
theorem test_jal : seen 31 (step (start .single 0 0 [] 0x0C000010)) =
    some ([0x28, 0x40, 0, 0, 0x28, 0], [false, false, false]) := by decide
/-- T31, multi-cycle, its third phase: no register is written. -/
theorem test_jal_execute : seen 31 (step (late .execute 0 0 0x0C000010 0)) =
    some ([0, 0x40, 0, 0, 0x28, 0], [false, false, false]) := by decide
/-- T40, single-cycle. -/
theorem test_halt : seen 3 (step (start .single 7 8 [] 0xFC221234)) =
    some ([0, 0x20, 7, 8, 15, 0], [false, false, false]) := by decide
/-- T40, multi-cycle, its third phase. -/
theorem test_halt_execute : seen 3 (step (late .execute 7 8 0xFC221234 0)) =
    some ([0, 0x24, 7, 8, 15, 0], [false, false, false]) := by decide

/-! ## Errors, control vectors, host operations -/

/-- T41 -/
theorem test_decode_error_single :
    seenFault (step { State.reset with mem := [(0, 0x04000000)] }) =
      some (.decodeError 0x04000000 { State.reset with mem := [(0, 0x04000000)], ir := 0x04000000 }) := by decide
/-- T42, its third step. -/
theorem test_decode_error_multi :
    seenFault (step (late .execute 0 0 0x04000000 0)) = some (.decodeError 0x04000000 (late .execute 0 0 0x04000000 0)) := by
  decide
/-- T49 -/
theorem test_fetch_outside :
    seenFault (step (setPc 0x1000 State.reset)) = some (.outOfRange (.address 0x1000) (setPc 0x1000 State.reset)) := by
  decide
/-- V7, V8, V12, V13. -/
theorem test_single_cycle_vectors :
    scControl .standard (.branch .equal) true = { sig0 .standard with pcWrite := true, pcSource := 1, aluOp := 1, irWrite := true } ∧
    scControl .standard (.branch .equal) false = { sig0 .standard with pcWrite := true, aluOp := 1, irWrite := true } ∧
    scControl .standard (.jump true) true =
      { sig0 .standard with pcWrite := true, pcSource := 2, regWrite := true, regDst := 2, aluSrcA := 1, aluSrcB := 2, irWrite := true } ∧
    scControl .standard .halt false = { sig0 .standard with irWrite := true } := by decide
/-- Q1, Q5, Q11, Q15, Q18. -/
theorem test_multi_cycle_vectors :
    mcUnit .standard .fetch 0x8C22FFFC false =
      .ok (some { sig0 .standard with pcWrite := true, memRead := true, aluSrcA := 1, aluSrcB := 2, irWrite := true }) ∧
    mcUnit .standard .writeback 0x8C22FFFC false = .ok (some { sig0 .standard with regWrite := true, memToReg := 1 }) ∧
    mcUnit .standard .memory 0xAC220010 true = .ok (some { sig0 .standard with memWrite := true }) ∧
    mcUnit .standard .execute 0x0C000010 true =
      .ok (some { sig0 .standard with pcWrite := true, pcSource := 2, aluSrcA := 1, aluSrcB := 2 }) ∧
    mcUnit .standard .memory 0x00221820 false = .ok none := by decide
/-- A6, A15, A38, A53, A59, A63: result and Z, N, V. -/
theorem test_alu :
    alu .standard 0 0x80000000 0x80000000 = some (0, { z := true, n := false, v := true }) ∧
    alu .standard 1 0x7FFFFFFF 0xFFFFFFFF = some (0x80000000, { z := false, n := true, v := true }) ∧
    alu .standard 5 3 0xFFFFFFFF = some (0x80000000, { z := false, n := true, v := false }) ∧
    alu .standard 7 0xF0000000 0x24 = some (0xFF000000, { z := false, n := true, v := false }) ∧
    alu .standard 8 0x80000000 0x7FFFFFFF = some (1, { z := false, n := false, v := false }) ∧
    aluBlock .standard 1 2 9 = { result := none, invalid := true } := by decide
/-- X4, X6, X7, X10. -/
theorem test_mux :
    mux 3 [0x22#32, 0xFFFFFFFC, 4] 1 = .ok 0xFFFFFFFC ∧ mux 3 [0x22#32, 0xFFFFFFFC, 4] 3 = .error (.select 3) ∧
    destination .standard 2 (fields 0x00221820) = .ok 31 ∧ mux 2 [1#32, 2, 3] 0 = .error (.inputCount 3) := by decide
/-- R122, R173: a vector with a bad selector is reported before PC, the flags, A and B change; IR holds the word. -/
theorem test_bad_select_single :
    seenFault (scPhases (fun _ => { sig0 .standard with regDst := 3, pcWrite := true }) 0x00221820
      { start .single 5 7 [] 0x00221820 with ir := 0x00221820 }) =
    some (.outOfRange (.select 3) { start .single 5 7 [] 0x00221820 with ir := 0x00221820 }) := by decide
/-- Fewer inputs than the capacity: the model's choice, log entry 10. -/
theorem test_mux_short : mux 3 [1#32, 2] 2 = .error (.select 2) ∧ mux 3 [1#32, 2] 1 = .ok 2 := by decide
/-- H4: the first word has been written. -/
theorem test_load_words_outside : seenFault (loadWords 0xFFC [1, 2] State.reset) =
    some (.outOfRange (.address 0x1000) { State.reset with mem := [(0x3FF, 1)] }) := by decide
/-- H3, H5, M4. -/
theorem test_load_and_dump :
    seenState (loadWords 0x40 [0x11111111, 0x122222222] State.reset) =
      some { State.reset with mem := [(0x10, 0x11111111), (0x11, 0x22222222)] } ∧
    dump 0x40 2 { State.reset with mem := [(0x10, 0x11111111), (0x11, 0x22222222)] } = .ok [0x11111111, 0x22222222] := by
  decide
/-- H6: the low two bits of PC are ignored by the fetch and carried by the + 4. -/
theorem test_pc_low_bits : seen 1 (step (setPc 0x123 State.reset)) = some ([0, 0x127, 0, 0, 0, 0], [true, false, false]) := by
  decide
/-- The fixed interface: a word placed with `withFetchWord` is the one the next step runs (here T23's). -/
theorem test_with_fetch_word :
    decodeTableWord 32 0x34018000 = some (.ori 1 0 0x8000) ∧
    seen 1 (step (State.reset.withFetchWord 32 0x34018000)) =
      some ([0xFFFF8000, 4, 0, 0, 0xFFFF8000, 0], [false, true, false]) := by decide

/-! ## Other numbering tables (R6) -/

/-- ISA_TABLE with J and HALT exchanged and SUB at funct 0x10. -/
def otherIsa : IsaTable := { IsaTable.standard with
  j := 0x3F, halt := 0x02, functSub := 0x10, opcodesDistinct := by decide, functsDistinct := by decide,
  functAddGiven := rfl }

/-- ALU_OP_CODE with SUB still 1 and the other operations backwards. -/
def otherOps : AluOpCode :=
  { ops := { names := [.slt, .sub, .sra, .srl, .sll, .xor, .or, .and, .add], perm := by decide }, subGiven := rfl }

/-- SEL_CODE with every multiplexer's inputs in another order, the branch target still 1. -/
def otherSel : SelCode where
  aluSrcA := { names := [.pc, .regA], perm := by decide }
  aluSrcB := { names := [.four, .regB, .imm], perm := by decide }
  regDst := { names := [.link, .rt, .rd], perm := by decide }
  memToReg := { names := [.mdr, .aluOut], perm := by decide }
  pcSource := { names := [.jump, .branch, .sequential], perm := by decide }
  branchGiven := rfl

theorem test_other_isa :
    decode otherIsa 0xFC000010 = .ok (.j 0x10) ∧ decode otherIsa 0x08000000 = .ok (.halt 0) ∧
    decode otherIsa 0x00221810 = .ok (.sub 3 1 2 0) ∧ decode otherIsa 0x00221822 = .error (.unknownFunct 0x22) := by decide

/-- T4 and T31 with every code changed. -/
theorem test_other_codes :
    seen 3 (step (renumber otherOps otherSel (start .single 10 20 [] 0x00221822))) =
      some ([0xFFFFFFF6, 0x24, 10, 20, 0xFFFFFFF6, 0], [false, true, false]) ∧
    seen 31 (step (renumber otherOps otherSel (start .single 0 0 [] 0x0C000010))) =
      some ([0x28, 0x40, 0, 0, 0x28, 0], [false, false, false]) := by decide

/-! ## Every hypothesis of every statement can be met: one theorem a statement, one conjunct a clause -/

theorem test_witness_EncodeDecode : decode .standard 0xFC221234 = .ok (.halt 0x221234) := by decide

theorem test_witness_IllegalWordsAreExactlyThese :
    classify .standard 0x04000000 = .error (.unknownOpcode 1) ∧ classify .standard 0xF8000000 = .error (.unknownOpcode 0x3E) ∧
    classify .standard 0x00000001 = .error (.unknownFunct 1) ∧ classify .standard 0x0000002B = .error (.unknownFunct 0x2B) := by decide

theorem test_witness_ClassifyFollowsTheTables :
    opcodeOf 0x0022182A = 0x00 ∧ functOf 0x0022182A = 0x2A ∧ opcodeOf 0x38000000 = 0x0E ∧ opcodeOf 0x8C000000 = 0x23 ∧
    opcodeOf 0xAC000000 = 0x2B ∧ opcodeOf 0x10000000 = 0x04 ∧ opcodeOf 0x14000000 = 0x05 ∧ opcodeOf 0x08000000 = 0x02 ∧
    opcodeOf 0x0C000000 = 0x03 ∧ opcodeOf 0xFC000000 = 0x3F ∧ opcodeOf 0x00000001 = 0x00 ∧ functOf 0x00000001 = 0x01 ∧
    opcodeOf 0xF8000000 = 0x3E := by decide

theorem test_witness_StepRunsDecodedInstruction :
    (start .single 0 0 [] 0x00221820).cfg.variant = .single ∧ (start .multi 0 0 [] 0x00221820).fsm = .fetch ∧
    (late .execute 0 0 0x00221820 0).cfg.variant = .multi ∧ (late .execute 0 0 0x00221820 0).fsm ≠ .fetch ∧
    wordInForce (start .single 0 0 [] 0x00221820) = some 0x00221820 ∧
    wordInForce (late .execute 0 0 0x00221820 0) = some 0x00221820 ∧ decode .standard 0x00221820 = .ok (.add 3 1 2 0) := by decide

theorem test_witness_AluSetLessThan :
    (0x80000000#32).toInt < (0x7FFFFFFF#32).toInt ∧ (5#32).toInt ≤ (5#32).toInt := by decide

theorem test_witness_AluLogic :
    ∃ (op : BitVec 4) (g : Bool → Bool → Bool), (op, g) ∈ [(2#4, and), (3#4, or), (4#4, xor)] :=
  ⟨4, xor, .tail _ (.tail _ (.head _))⟩

theorem test_witness_InvalidOperationCodes :
    9 ≤ ({ sig0 .standard with aluOp := 9 } : Signals).aluOp.toNat ∧ 9 ≤ ({ sig0 .standard with aluOp := 15 } : Signals).aluOp.toNat ∧
    (sig0 .standard).pcSource ≠ 3 ∧ (sig0 .standard).regDst ≠ 3 ∧ (sig0 .standard).aluSrcB ≠ 3 := by decide

theorem test_witness_MultiplexerSelection :
    [1#32, 2, 3].length = 3 ∧ 2 < [1#32, 2, 3].length ∧ 3 ≤ 3 ∧ 2 < [1#32, 2, 3].length ∧
    ({ sig0 .standard with aluSrcB := 3 } : Signals).aluSrcB = 3 ∧ ({ sig0 .standard with pcSource := 3 } : Signals).pcSource = 3 ∧
    ({ sig0 .standard with regDst := 3 } : Signals).regDst = 3 := by decide

theorem test_witness_RegisterFilePorts : (31 : RegIdx) ≠ 0 ∧ (0 : RegIdx) ≠ 31 := by decide

theorem test_witness_MemoryReadsAndWrites :
    Memory.wf State.reset.mem = true ∧ State.reset.cfg.memWords ≤ (0x1000#32).toNat / 4 ∧
    ¬ State.reset.cfg.memWords ≤ (0xFFF#32).toNat / 4 ∧
    memWrite State.reset 0xFFC (trunc32 (2 ^ 32 + 7)) = some { State.reset with mem := [(1023, 7)] } ∧
    (0xFFF#32).toNat / 4 = (0xFFC#32).toNat / 4 ∧ (0xFFB#32).toNat / 4 ≠ (0xFFC#32).toNat / 4 := by decide

theorem test_witness_CanonicalMemoryIsUnique : Memory.wf [(0, 5), (1023, 1)] = true := by decide

theorem test_witness_ControlVectorsAreLegal :
    scControl .standard .halt false = { sig0 .standard with irWrite := true } ∧
    (mcControl .standard .writeback (.jump true)).map (fun ctl => ctl false) = some { sig0 .standard with regWrite := true, regDst := 2 } := by
  decide

/-- The premise of the second clause, and tables that do not meet it. -/
theorem test_witness_McPhaseVectors :
    Config.standard.aluOpCode = .standard ∧ Config.standard.selCode = .standard ∧
    (srcACode otherSel .pc, srcBCode otherSel .four, aluCode otherOps .add) = (0, 0, 8) := by decide

theorem test_witness_ScVectors :
    (Config.mk .multi 4 otherIsa .standard .standard).aluOpCode = .standard ∧
    (Config.mk .multi 4 otherIsa .standard .standard).selCode = .standard := by decide

theorem test_witness_StandardNumbers : (start .multi 1 2 [] 0).cfg.selCode = .standard := by decide

/-- One step of each outcome. -/
theorem test_witness_NumberingDoesNotMatter :
    (seenState (step (start .single 5 7 [] 0x00221820))).isSome = true ∧
    (seenFault (step (start .single 0 0 [] 0x04000000))).isSome = true ∧
    seenFault (step (late .memory 1 2 0x00221820 0)) = none ∧ seenState (step (late .memory 1 2 0x00221820 0)) = none := by
  decide

/-- One completed step out of each of the five states. -/
theorem test_witness_McStepFollowsTheFsm :
    (start .multi 0x100 0 [] 0x8C220000).cfg.variant = .multi ∧
    seenPhase (step (start .multi 0x100 0 [] 0x8C220000)) = some (.decode, 1) ∧
    seenPhase (step (late .decode 0x100 0 0x8C220000 0)) = some (.execute, 1) ∧
    seenPhase (step (late .execute 0x100 0 0x8C220000 0)) = some (.memory, 1) ∧
    seenPhase (step (late .memory 0x100 0 0x8C220000 0x100)) = some (.writeback, 1) ∧
    seenPhase (step (late .writeback 0x100 0 0x8C220000 0x100)) = some (.fetch, 1) := by decide

theorem test_witness_VisitedStatesMatchTheClass :
    memRead (start .multi 0x100 0 [] 0x8C220000) 0x20 = some 0x8C220000 ∧ classify .standard 0x8C220000 = .ok .load ∧
    5 ≤ (visitedStates .load).length ∧
    seenPhase (Host.Core.run core 5 (start .multi 0x100 0 [] 0x8C220000)) = some (.fetch, 5) := by decide

theorem test_witness_RTypeEffect :
    (start .single 5 7 [] 0x00221820).cfg.variant = .single ∧ (start .multi 5 7 [] 0x00221820).cfg.variant = .multi ∧
    (start .multi 5 7 [] 0x00221820).fsm = .fetch ∧
    memRead (start .multi 5 7 [] 0x00221820) 0x20 = some (encode .standard (.add 3 1 2 0)) := by decide
theorem test_witness_ITypeEffect :
    (start .single 5 7 [] 0x2022FFFC).cfg.variant = .single ∧ (start .multi 5 7 [] 0x2022FFFC).cfg.variant = .multi ∧
    (start .multi 5 7 [] 0x2022FFFC).fsm = .fetch ∧
    memRead (start .multi 5 7 [] 0x2022FFFC) 0x20 = some (encode .standard (.addi 2 1 0xFFFC)) := by decide
theorem test_witness_BranchEffect :
    (start .single 5 7 [] 0x10220010).cfg.variant = .single ∧ (start .multi 5 7 [] 0x10220010).cfg.variant = .multi ∧
    (start .multi 5 7 [] 0x10220010).fsm = .fetch ∧
    memRead (start .multi 5 7 [] 0x10220010) 0x20 = some (encode .standard (.beq 1 2 0x10)) := by decide
theorem test_witness_JumpEffect :
    (start .single 5 7 [] 0x08000010).cfg.variant = .single ∧ (start .multi 5 7 [] 0x08000010).cfg.variant = .multi ∧
    (start .multi 5 7 [] 0x08000010).fsm = .fetch ∧
    memRead (start .multi 5 7 [] 0x08000010) 0x20 = some (encode .standard (.j 0x10)) := by decide

/-- Each of the eight forms completes, on a destination other than 0 and on 0. -/
theorem test_witness_ArithmeticResults :
    [Instr.add 3 1 2 0, .addi 3 1 0xFFFC, .sub 3 1 2 0, .slt 3 1 2 0, .slti 3 1 0xFFFF, .sll 3 1 2 0, .srl 3 1 2 0,
      .sra 3 1 2 0, .add 0 1 2 0, .addi 0 1 0xFFFC, .sub 0 1 2 0, .slt 0 1 2 0, .slti 0 1 0xFFFF, .sll 0 1 2 0, .srl 0 1 2 0,
      .sra 0 1 2 0].map (fun i => (seenState (exec i (start .single 10 20 [] 0))).isSome) = List.replicate 16 true := by
  decide

theorem test_witness_LoadEffect :
    (start .single 0xFFC 0 [] 0x8C220000).cfg.variant = .single ∧ (start .multi 0xFFC 0 [] 0x8C220000).cfg.variant = .multi ∧
    (start .multi 0xFFC 0 [] 0x8C220000).fsm = .fetch ∧
    memRead (start .multi 0xFFC 0 [] 0x8C220000) 0x20 = some (encode .standard (.lw 2 1 0)) ∧
    memRead (start .multi 0xFFC 0 [] 0x8C220000) (effectiveAddress 1 0 (start .multi 0xFFC 0 [] 0x8C220000)) = some 0 ∧
    memRead (start .multi 0xFFC 0 [] 0x8C220004) 0x20 = some (encode .standard (.lw 2 1 4)) ∧
    1024 ≤ (effectiveAddress 1 4 (start .multi 0xFFC 0 [] 0x8C220004)).toNat / 4 := by decide

theorem test_witness_StoreEffect :
    Memory.wf (start .multi 0xFFC 7 [] 0xAC220003).mem = true ∧ (start .single 0xFFC 7 [] 0xAC220003).cfg.variant = .single ∧
    (start .multi 0xFFC 7 [] 0xAC220003).cfg.variant = .multi ∧ (start .multi 0xFFC 7 [] 0xAC220003).fsm = .fetch ∧
    memRead (start .multi 0xFFC 7 [] 0xAC220003) 0x20 = some (encode .standard (.sw 2 1 3)) ∧
    (effectiveAddress 1 3 (start .multi 0xFFC 7 [] 0xAC220003)).toNat / 4 < 1024 ∧
    memRead (start .multi 0xFFC 7 [] 0xAC220004) 0x20 = some (encode .standard (.sw 2 1 4)) ∧
    1024 ≤ (effectiveAddress 1 4 (start .multi 0xFFC 7 [] 0xAC220004)).toNat / 4 := by decide

theorem test_witness_JalEffect :
    (start .single 0 0 [] 0x0C000010).cfg.variant = .single ∧ (start .multi 0 0 [] 0x0C000010).cfg.variant = .multi ∧
    (start .multi 0 0 [] 0x0C000010).fsm = .fetch ∧
    memRead (start .multi 0 0 [] 0x0C000010) 0x20 = some (encode .standard (.jal 0x10)) := by decide

theorem test_witness_HaltEffect :
    (start .single 7 8 [] 0xFC221234).cfg.variant = .single ∧ (start .multi 7 8 [] 0xFC221234).cfg.variant = .multi ∧
    (start .multi 7 8 [] 0xFC221234).fsm = .fetch ∧
    memRead (start .multi 7 8 [] 0xFC221234) 0x20 = some (encode .standard (.halt 0x221234)) := by decide

theorem test_witness_McFetchAndDecodePhases :
    (start .multi 0 0 [] 0x04000000).cfg.variant = .multi ∧ (start .multi 0 0 [] 0x04000000).fsm = .fetch ∧
    memRead (start .multi 0 0 [] 0x04000000) 0x20 = some 0x04000000 ∧
    (late .decode 0 0 0x04000000 0).cfg.variant = .multi ∧ (late .decode 0 0 0x04000000 0).fsm = .decode := by decide

theorem test_witness_McLatePhases :
    decode .standard 0x8C220000 = .ok (.lw 2 1 0) ∧ (late .execute 0xFFC 0 0x8C220000 0).fsm = .execute ∧
    classOf (.lw 2 1 0) = .load ∧
    memRead (late .memory 0xFFC 0 0x8C220000 0xFFF) (late .memory 0xFFC 0 0x8C220000 0xFFF).aluOut = some 0 ∧
    decode .standard 0xAC220000 = .ok (.sw 2 1 0) ∧ classOf (.sw 2 1 0) = .store ∧
    (memWrite (late .memory 0xFFC 0 0xAC220000 0xFFC) 0xFFC 0).isSome = true ∧
    decode .standard 0x00221820 = .ok (.add 3 1 2 0) ∧ classOf (.add 3 1 2 0) = .rType .add ∧
    decode .standard 0x2022FFFC = .ok (.addi 2 1 0xFFFC) ∧ classOf (.addi 2 1 0xFFFC) = .iType .add ∧
    decode .standard 0x0C000010 = .ok (.jal 0x10) ∧ classOf (.jal 0x10) = .jump true := by decide

theorem test_witness_McInstructionEqualsScStep :
    (start .multi 0x100 0 [(0x40, 0x55)] 0x8C220000).cfg.variant = .multi ∧
    (start .multi 0x100 0 [(0x40, 0x55)] 0x8C220000).fsm = .fetch ∧
    memRead (start .multi 0x100 0 [(0x40, 0x55)] 0x8C220000) 0x20 = some 0x8C220000 ∧
    decode .standard 0x8C220000 = .ok (.lw 2 1 0) ∧
    (seenState (step { start .multi 0x100 0 [(0x40, 0x55)] 0x8C220000 with
      cfg := { variant := .single, memWords := 1024 } })).isSome = true := by decide

theorem test_witness_FetchOutsideMemory :
    (setPc 0x1000 State.reset).cfg.variant = .single ∧ 1024 ≤ (setPc 0x1000 State.reset).pc.toNat / 4 ∧
    (setPc (-1) (State.powerOn { variant := .multi, memWords := 1024 })).fsm = .fetch ∧
    1024 ≤ (setPc (-1) (State.powerOn { variant := .multi, memWords := 1024 })).pc.toNat / 4 := by decide

theorem test_witness_IllegalWordRaisesDecodeError :
    classify .standard 0x04000000 = .error (.unknownOpcode 1) ∧ (start .single 0 0 [] 0x04000000).cfg.variant = .single ∧
    memRead (start .single 0 0 [] 0x04000000) 0x20 = some 0x04000000 ∧
    (late .execute 0 0 0x04000000 0).cfg.variant = .multi ∧ (late .execute 0 0 0x04000000 0).fsm = .execute ∧
    (late .execute 0 0 0x04000000 0).ir = 0x04000000 ∧ (start .multi 0 0 [] 0x04000000).fsm = .fetch ∧
    memRead (start .multi 0 0 [] 0x04000000) 0x20 = some 0x04000000 := by decide

theorem test_witness_McFailingStepChangesNothing :
    (late .memory 0x1000 0 0x8C220000 0x1000).cfg.variant = .multi ∧
    (seenFault (step (late .memory 0x1000 0 0x8C220000 0x1000))).isSome = true := by decide

theorem test_witness_McDataAccessOutsideMemory :
    (late .memory 0x1000 0 0x8C220000 0x1000).fsm = .memory ∧ classify .standard 0x8C220000 = .ok .load ∧
    classify .standard 0xAC220000 = .ok .store ∧ 1024 ≤ (late .memory 0x1000 0 0xAC220000 0x1000).aluOut.toNat / 4 := by decide

/-- One error of each of the two kinds. -/
theorem test_witness_StepErrorsAreTwo :
    (seenFault (step (setPc 0x1000 State.reset))).map Fault.wireCode = some 2 ∧
    (seenFault (step (start .single 0 0 [] 0x04000000))).map Fault.wireCode = some 3 := by decide

/-- Each of the three cases: multi-cycle, fetch, DecodeError. -/
theorem test_witness_SameErrorAgain :
    (seenFault (step (late .memory 0x1000 0 0x8C220000 0x1000))).isSome = true ∧
    (seenFault (step (setPc 0x1000 State.reset))).isSome = true ∧
    memRead (setPc 0x1000 State.reset) (setPc 0x1000 State.reset).pc = none ∧
    (seenFault (step (start .single 0 0 [] 0x04000000))).map Fault.wireCode = some 3 := by decide

theorem test_witness_ScDataErrorIsSkipped :
    (start .single 0x1000 0 [] 0x8C220000).cfg.variant = .single ∧
    (seenFault (step (start .single 0x1000 0 [] 0x8C220000))).isSome = true ∧
    memRead (start .single 0x1000 0 [] 0x8C220000) 0x20 = some 0x8C220000 ∧ classify .standard 0x8C220000 = .ok .load := by decide

theorem test_witness_PowerOnMeetsInv :
    Config.valid { variant := .single, memWords := 1 } = true ∧
    Config.valid { variant := .multi, memWords := 2 ^ 30 } = true := by decide

theorem test_witness_StepKeepsInv : ∃ s t : State, Inv s ∧ step s = .next t := by
  refine ⟨start .multi 0x100 0 [] 0x8C220000, _, ⟨?_, ?_, ?_, ?_, ?_, ?_⟩, rfl⟩ <;> decide

theorem test_witness_NoReachableRefusal : ∃ s : State, Inv s := by
  refine ⟨late .memory 0x100 0 0x8C220000 0x100, ⟨?_, ?_, ?_, ?_, ?_, ?_⟩⟩ <;> decide

theorem test_witness_RefusedOnlyWithoutVector :
    step (late .memory 1 2 0x00221820 0) = .refused (.unreachablePhase .memory) ∧
    step (late .writeback 1 2 0xAC220000 0) = .refused (.unreachablePhase .writeback) := ⟨rfl, rfl⟩

/-- R161: no next state after WRITEBACK for STORE, BRANCH, J and HALT; JAL is the exception. -/
theorem test_no_next_state :
    [InstrClass.store, .branch .equal, .jump false, .halt, .jump true, .load].map (nextState .writeback) =
      [none, none, none, none, some .fetch, some .fetch] := by decide

theorem test_witness_PcStaysAligned :
    (start .single 10 20 [] 0x00221820).pc.toNat % 4 = 0 ∧
    (seenState (step (start .single 10 20 [] 0x00221820))).isSome = true := by decide

/-- A register that does change, in each variant. -/
theorem test_witness_RegistersChangeOnlyByDestination :
    (start .single 10 20 [] 0x00221820).reg 3 = 0 ∧
    (seenState (step (start .single 10 20 [] 0x00221820))).map (fun t => t.reg 3) = some 30 ∧
    (late .writeback 10 20 0x00221820 30).reg 3 = 0 ∧
    (seenState (step (late .writeback 10 20 0x00221820 30))).map (fun t => t.reg 3) = some 30 := by decide

/-- A cell that does change, in each variant. -/
theorem test_witness_MemoryChangesOnlyBySw :
    Memory.wf (start .single 0x100 0xABCD1234 [] 0xAC220010).mem = true ∧
    Memory.read (start .single 0x100 0xABCD1234 [] 0xAC220010).mem 0x44 = 0 ∧
    seenCell 0x44 (step (start .single 0x100 0xABCD1234 [] 0xAC220010)) = some 0xABCD1234 ∧
    Memory.read (late .memory 0x100 0xABCD1234 0xAC220010 0x110).mem 0x44 = 0 ∧
    seenCell 0x44 (step (late .memory 0x100 0xABCD1234 0xAC220010 0x110)) = some 0xABCD1234 := by decide

/-- MDR by LW; IR by FETCH; A by DECODE; ALUOut, PC and the flags by EXECUTE. -/
theorem test_witness_HoldingRegistersFrame :
    (seenState (step (late .memory 0x100 0 0x8C220000 0x100))).map State.mdr = some 0xCAFEF00D ∧
    (seenState (step (start .multi 0 0 [] 0x8C220000))).map State.ir = some 0x8C220000 ∧
    (seenState (step { late .decode 7 0 0x8C220000 0 with a := 0 })).map State.a = some 7 ∧
    (seenState (step (late .execute 5 5 0x10220010 9))).map (fun t => (t.aluOut, t.pc, t.flags.z)) =
      some (0, 0x64, true) := by decide

theorem test_witness_StoreThenLoadRoundTrip :
    (start .single 0x100 7 [] 0xAC220010).cfg.variant = .single ∧
    Memory.wf (start .single 0x100 7 [] 0xAC220010).mem = true ∧ (3 : RegIdx) ≠ 0 ∧
    (seenState (exec (.sw 2 1 0x10) (start .single 0x100 7 [] 0xAC220010))).map
      (fun t => (effectiveAddress 1 0x13 t).toNat / 4) = some 0x44 ∧
    (effectiveAddress 1 0x10 (start .single 0x100 7 [] 0xAC220010)).toNat / 4 = 0x44 := by decide

theorem test_witness_StoreSeenByNextFetch :
    (start .single 0x24 0x20020007 [] 0xAC220000).cfg.variant = .single ∧
    Memory.wf (start .single 0x24 0x20020007 [] 0xAC220000).mem = true ∧
    (seenState (exec (.sw 2 1 0) (start .single 0x24 0x20020007 [] 0xAC220000))).map (fun t => t.pc.toNat / 4) = some 9 ∧
    (effectiveAddress 1 0 (start .single 0x24 0x20020007 [] 0xAC220000)).toNat / 4 = 9 := by decide

theorem test_witness_LoadThenDump :
    Memory.wf State.reset.mem = true ∧ [1, (2 : Int)].length ≤ 2 ^ 30 ∧
    (seenState (loadWords 0xFF8 [1, 2] State.reset)).isSome = true := by decide

theorem test_witness_LoadWordsStopsAtTheFirstBadCell :
    (seenState (loadWords 0xFFC [1] State.reset)).isSome = true ∧
    State.reset.cfg.memWords ≤ (0xFFC#32 + BitVec.ofNat 32 (4 * [(1 : Int)].length)).toNat / 4 := by decide

/-- A run that ends in an error after one completed step. -/
theorem test_witness_RunReportsStepsCompleted :
    (runSteps 3 { setPc 0xFFC State.reset with cfg := { variant := .single, memWords := 1024 } }).2 = 1 := by decide

theorem test_witness_RegisterAccessors : readReg 32 State.reset = .error (.register 32) ∧ readReg 31 State.reset = .ok 0 := by
  decide

theorem test_witness_HaltIsAFixedPoint :
    (start .single 7 8 [] 0xFC221234).cfg.variant = .single ∧
    memRead (start .single 7 8 [] 0xFC221234) 0x20 = some (encode .standard (.halt 0x221234)) ∧
    (seenState (step (start .single 7 8 [] 0xFC221234))).isSome = true := by decide

theorem test_witness_McHaltIsSeenInFetch :
    (start .multi 7 8 [] 0xFC221234).cfg.variant = .multi ∧ (start .multi 7 8 [] 0xFC221234).fsm = .fetch ∧
    memRead (start .multi 7 8 [] 0xFC221234) 0x20 = some (encode .standard (.halt 0x221234)) ∧
    (seenState (Host.Core.run core 3 (start .multi 7 8 [] 0xFC221234))).isSome = true := by decide

end Sys2Proof.Tests
end

section
/-! The register file's ports (10_state.md R22, R23): O14, from the port laws of `Laws/Registers.lean`. -/

namespace Sys2Proof.Proofs

open Sys2Proof.Machine Sys2Proof.Laws

/-- R22: an index other than 0 has no special reading. -/
theorem read_of_ne_zero (x : RegFile) {i : RegIdx} (hi : i ≠ 0) : RegFile.read x i = x[i.toNat]'i.isLt :=
  if_neg hi

/-- R23: read after write, same index. -/
theorem read_write_same (x : RegFile) {i : RegIdx} (v : Word) (hi : i ≠ 0) :
    RegFile.read (RegFile.write x true i v) i = v := by
  rw [RegFile.read_write, if_pos ⟨rfl, rfl, hi⟩]

/-- R23: the frame of the write port, whatever its gate. -/
theorem read_write_of_ne (x : RegFile) (enable : Bool) {i j : RegIdx} (v : Word) (hji : j ≠ i) :
    RegFile.read (RegFile.write x enable i v) j = RegFile.read x j := by
  rw [RegFile.read_write, if_neg fun ⟨_, hji', _⟩ => hji hji']

/-- R301: within range the host's accessor shows what a read port shows. -/
theorem readReg_toNat (r : RegIdx) (s : State) : readReg r.toNat s = .ok (s.reg r) := by
  rw [readReg, if_pos r.isLt, BitVec.ofNat_toNat, BitVec.setWidth_eq]

/-- R22, through the host's accessor. -/
theorem readReg_zero (s : State) : readReg 0 s = .ok 0 := by
  simpa using readReg_toNat 0 s

/-- Settles O14: each clause is one law of the read port, the accessor or the write port. -/
theorem registerFilePorts : Obligations.RegisterFilePorts := by
  intro x enable i j v
  exact ⟨RegFile.read_zero x, readReg_zero, read_of_ne_zero x, RegFile.write_zero x enable v,
    RegFile.write_disabled x i v, read_write_same x v, read_write_of_ne x enable v⟩

end Sys2Proof.Proofs
end

section
/-! The ALU's sums, differences and bitwise operations (40_alu.md R102 to R106): O7 and O9, from the ALU laws of
`Laws/Alu.lean`. -/

namespace Sys2Proof.Proofs

open Sys2Proof.Machine Sys2Proof.Laws

/-! ## The flags (R101, R111) -/

theorem aluFlags_z_iff (op : AluOp) (a b : Word) : (aluFlags op a b).z = true ↔ aluResult op a b = 0 :=
  beq_iff_eq

theorem aluFlags_n (op : AluOp) (a b : Word) : (aluFlags op a b).n = (aluResult op a b).msb := rfl

/-- R102: ADD overflows on operands of one sign and a result of the other. -/
theorem aluFlags_add_v_iff (a b : Word) :
    (aluFlags .add a b).v = true ↔ a.msb = b.msb ∧ (aluResult .add a b).msb ≠ a.msb := by
  simp [aluFlags, aluOverflow]

/-- R103: SUB overflows on operands of different signs and a result that leaves the sign of the first. -/
theorem aluFlags_sub_v_iff (a b : Word) :
    (aluFlags .sub a b).v = true ↔ a.msb ≠ b.msb ∧ (aluResult .sub a b).msb ≠ a.msb := by
  simp [aluFlags, aluOverflow]

/-! ## ADD and SUB -/

theorem toNat_aluResult_add (a b : Word) : (aluResult .add a b).toNat = (a.toNat + b.toNat) % 2 ^ 32 :=
  BitVec.toNat_add a b

theorem toNat_aluResult_sub (a b : Word) :
    ((aluResult .sub a b).toNat : Int) = ((a.toNat : Int) - b.toNat) % 2 ^ 32 := by
  have hsub : (aluResult .sub a b).toNat = (2 ^ 32 - b.toNat + a.toNat) % 2 ^ 32 := BitVec.toNat_sub a b
  have hb : b.toNat < 2 ^ 32 := b.isLt
  omega

/-- Settles O7: codes 0 and 1 are ADD's and SUB's, so each clause is a law of that operation's result or flags. -/
theorem aluAddAndSub : Obligations.AluAddAndSub := by
  intro a b
  have hZeroIffEq : (aluFlags .sub a b).z = true ↔ a = b := by rw [aluFlags_sub_z, beq_iff_eq]
  exact
    ⟨⟨_, _, alu_code .standard .add a b, toNat_aluResult_add a b, aluFlags_z_iff .add a b, aluFlags_n .add a b,
        aluFlags_add_v_iff a b⟩,
      ⟨_, _, alu_code .standard .sub a b, toNat_aluResult_sub a b, aluFlags_z_iff .sub a b, hZeroIffEq,
        aluFlags_n .sub a b, aluFlags_sub_v_iff a b⟩⟩

/-! ## AND, OR and XOR -/

/-- R104 to R106: what the three operations share. An operation that works bit by bit with `g` and never overflows has, on its
code, the result and the flags of the logic rules. -/
theorem alu_bitwise {op : AluOp} {g : Bool → Bool → Bool} {a b : Word}
    (hbit : ∀ i, (aluResult op a b).getLsbD i = g (a.getLsbD i) (b.getLsbD i)) (hv : (aluFlags op a b).v = false) :
    ∃ r f, alu .standard (aluCode .standard op) a b = some (r, f) ∧
      (∀ i, i < 32 → r.getLsbD i = g (a.getLsbD i) (b.getLsbD i)) ∧ (f.z = true ↔ r = 0) ∧ f.n = r.getLsbD 31 ∧ f.v = false :=
  ⟨_, _, alu_code .standard op a b, fun i _ => hbit i, aluFlags_z_iff op a b,
    (aluFlags_n op a b).trans (BitVec.msb_eq_getLsbD_last _), hv⟩

/-- Settles O9: each of the three codes is that of an operation which works bit by bit. -/
theorem aluLogic : Obligations.AluLogic := by
  intro a b op g hmem
  simp only [List.mem_cons, Prod.mk.injEq, List.not_mem_nil, or_false] at hmem
  obtain ⟨rfl, rfl⟩ | ⟨rfl, rfl⟩ | ⟨rfl, rfl⟩ := hmem
  · exact alu_bitwise (op := .and) (fun _ => BitVec.getLsbD_and) rfl
  · exact alu_bitwise (op := .or) (fun _ => BitVec.getLsbD_or) rfl
  · exact alu_bitwise (op := .xor) (fun _ => BitVec.getLsbD_xor) rfl

end Sys2Proof.Proofs
end

section
/-! Decoding and encoding (30_encoding.md R71, R80 to R91): O1 to O5, from the field laws of `Laws/Encoding.lean` and the table
laws of `Laws/Tables.lean`. -/

namespace Sys2Proof.Proofs

open Sys2Proof.Machine Sys2Proof.Laws

/-! ## The two round trips -/

/-- Settles O2: by the format of the instruction; each field is read back whole, and the table leads from a row's number back to
the row. -/
theorem decodeEncode : Obligations.DecodeEncode := by
  intro t i
  cases i with
  | add rd rs rt shamt | sub rd rs rt shamt | and rd rs rt shamt | or rd rs rt shamt | xor rd rs rt shamt
  | sll rd rs rt shamt | srl rd rs rt shamt | sra rd rs rt shamt | slt rd rs rt shamt =>
    simp [decode, encode, decodeRType, rTypeInstr]
  | addi rt rs imm | slti rt rs imm | andi rt rs imm | ori rt rs imm | xori rt rs imm | lw rt rs imm | sw rt rs imm
  | beq rs rt imm | bne rs rt imm => simp [decode, encode]
  | j address | jal address | halt ignored => simp [decode, encode]

/-- R81: the word of the instruction that an R_TYPE row decodes to. -/
theorem encode_rTypeInstr (t : IsaTable) (op : AluOp) (w : Word) :
    encode t (rTypeInstr op w) = encodeR t.rType (t.funct op) (rsOf w) (rtOf w) (rdOf w) (shamtOf w) := by
  cases op <;> rfl

theorem encodeI_of_opcode {op : BitVec 6} {w : Word} (hop : op = opcodeOf w) :
    encodeI op (rsOf w) (rtOf w) (imm16Of w) = w := by
  rw [hop, word_of_fieldsI]

theorem encodeJ_of_opcode {op : BitVec 6} {w : Word} (hop : op = opcodeOf w) : encodeJ op (addressOf w) = w := by
  rw [hop, word_of_fieldsJ]

/-- Settles O3: by the row of the opcode, and of the funct in the R_TYPE row; the word is the concatenation of its fields. -/
theorem encodeDecode : Obligations.EncodeDecode := by
  intro t w i h
  unfold decode at h
  cases hm : t.majorOf (opcodeOf w) with
  | none => rw [hm] at h; cases h
  | some m =>
    rw [hm] at h
    have hop : t.opcode m = opcodeOf w := opcode_of_majorOf hm
    cases m with
    | rType =>
      simp only [decodeRType] at h
      cases hf : t.aluOpOf (functOf w) with
      | none => rw [hf] at h; cases h
      | some op =>
        rw [hf] at h
        cases h
        have hR : t.rType = opcodeOf w := hop
        rw [encode_rTypeInstr, funct_of_aluOpOf hf, hR, word_of_fieldsR]
    | j | jal | halt => cases h; exact encodeJ_of_opcode hop
    | beq | bne | addi | slti | andi | ori | xori | lw | sw => cases h; exact encodeI_of_opcode hop

/-! ## The classifier -/

/-- R91: the class of every row of R80 but the R_TYPE one, whose class depends on the funct. -/
def classOfMajor : Major → Option InstrClass
  | .rType => none
  | .j => some (.jump false)
  | .jal => some (.jump true)
  | .beq => some (.branch .equal)
  | .bne => some (.branch .notEqual)
  | .addi => some (.iType .add)
  | .slti => some (.iType .slt)
  | .andi => some (.iType .and)
  | .ori => some (.iType .or)
  | .xori => some (.iType .xor)
  | .lw => some .load
  | .sw => some .store
  | .halt => some .halt

theorem classOfMajor_eq_none {m : Major} : classOfMajor m = none ↔ m = .rType := by
  cases m <;> simp [classOfMajor]

theorem classify_of_opcode {t : IsaTable} {w : Word} {m : Major} {c : InstrClass} (hop : opcodeOf w = t.opcode m)
    (hc : classOfMajor m = some c) : classify t w = .ok c := by
  unfold classify decode
  rw [hop, majorOf_opcode]
  cases m with
  | rType => cases hc
  | j | jal | beq | bne | addi | slti | andi | ori | xori | lw | sw | halt => cases hc; rfl

theorem classOf_rTypeInstr (op : AluOp) (w : Word) : classOf (rTypeInstr op w) = .rType op := by
  cases op <;> rfl

theorem classify_of_funct {t : IsaTable} {w : Word} {op : AluOp} (hop : opcodeOf w = t.rType) (hf : functOf w = t.funct op) :
    classify t w = .ok (.rType op) := by
  simp [classify, decode, decodeRType, hop, hf, aluOpOf_funct, classOf_rTypeInstr, Except.map]

/-- R86, first reason. -/
theorem classify_of_unknown_opcode {t : IsaTable} {w : Word} (h : ∀ m, t.opcode m ≠ opcodeOf w) :
    classify t w = .error (.unknownOpcode (opcodeOf w)) := by
  rw [classify_eq_error, decode, majorOf_eq_none.mpr h]

/-- R86, second reason. -/
theorem classify_of_unknown_funct {t : IsaTable} {w : Word} (hop : opcodeOf w = t.rType)
    (h : ∀ op, t.funct op ≠ functOf w) : classify t w = .error (.unknownFunct (functOf w)) := by
  rw [classify_eq_error, decode, hop, majorOf_rType]
  simp only [decodeRType, aluOpOf_eq_none.mpr h]

/-- R86: there is no third reason, under any table. -/
theorem classify_error_iff {t : IsaTable} {w : Word} :
    (∃ e, classify t w = .error e) ↔
      (∀ m, t.opcode m ≠ opcodeOf w) ∨ (opcodeOf w = t.rType ∧ ∀ op, t.funct op ≠ functOf w) := by
  constructor
  · rintro ⟨e, he⟩
    by_contra hnot
    obtain ⟨⟨m, hm⟩, hR⟩ : (∃ m, t.opcode m = opcodeOf w) ∧ (opcodeOf w = t.rType → ∃ op, t.funct op = functOf w) := by
      simpa using hnot
    cases hc : classOfMajor m with
    | some c => cases he.symm.trans (classify_of_opcode hm.symm hc)
    | none =>
      obtain rfl : m = .rType := classOfMajor_eq_none.mp hc
      obtain ⟨op, hf⟩ := hR hm.symm
      cases he.symm.trans (classify_of_funct hm.symm hf.symm)
  · rintro (h | ⟨hop, h⟩)
    · exact ⟨_, classify_of_unknown_opcode h⟩
    · exact ⟨_, classify_of_unknown_funct hop h⟩

/-! ## The spec's own numbers -/

/-- R80: the opcodes of the table, in the order of its rows. -/
theorem standard_opcodes :
    Major.all.map IsaTable.standard.opcode =
      [0x00#6, 0x02#6, 0x03#6, 0x04#6, 0x05#6, 0x08#6, 0x0A#6, 0x0C#6, 0x0D#6, 0x0E#6, 0x23#6, 0x2B#6, 0x3F#6] := rfl

theorem not_mem_standard_opcodes {x : BitVec 6} :
    x ∉ [0x00#6, 0x02#6, 0x03#6, 0x04#6, 0x05#6, 0x08#6, 0x0A#6, 0x0C#6, 0x0D#6, 0x0E#6, 0x23#6, 0x2B#6, 0x3F#6] ↔
      ∀ m, IsaTable.standard.opcode m ≠ x := by
  simp only [← standard_opcodes, List.mem_map, not_exists, not_and, mem_major, true_implies, ne_eq]

/-- R81, where the list stands in rising order. -/
theorem not_mem_standard_functs {x : BitVec 6} :
    x ∉ [0x00#6, 0x02#6, 0x03#6, 0x20#6, 0x22#6, 0x24#6, 0x25#6, 0x26#6, 0x2A#6] ↔
      ∀ op, IsaTable.standard.funct op ≠ x := by
  have hperm : [0x00#6, 0x02#6, 0x03#6, 0x20#6, 0x22#6, 0x24#6, 0x25#6, 0x26#6, 0x2A#6].Perm
      (AluOp.all.map IsaTable.standard.funct) := by decide
  simp only [hperm.mem_iff, List.mem_map, not_exists, not_and, mem_aluOp, true_implies, ne_eq]

/-- Settles O4: the two reasons, with the table's own numbers. -/
theorem illegalWordsAreExactlyThese : Obligations.IllegalWordsAreExactlyThese := by
  intro w
  rw [not_mem_standard_opcodes, not_mem_standard_functs]
  exact classify_error_iff

/-- Settles O5: a row of R80 for each opcode, a row of R81 for each funct, and the two rejections. -/
theorem classifyFollowsTheTables : Obligations.ClassifyFollowsTheTables := by
  intro w
  refine ⟨fun hop op hmem => ?_, fun op hmem => ?_, fun h => classify_of_opcode (m := .lw) h rfl,
    fun h => classify_of_opcode (m := .sw) h rfl, fun h => classify_of_opcode (m := .beq) h rfl,
    fun h => classify_of_opcode (m := .bne) h rfl, fun h => classify_of_opcode (m := .j) h rfl,
    fun h => classify_of_opcode (m := .jal) h rfl, fun h => classify_of_opcode (m := .halt) h rfl,
    fun hop h => classify_of_unknown_funct hop (not_mem_standard_functs.mp h),
    fun h => classify_of_unknown_opcode (not_mem_standard_opcodes.mp h)⟩
  · refine classify_of_funct hop ?_
    simp only [List.mem_cons, Prod.mk.injEq, List.not_mem_nil, or_false] at hmem
    rcases hmem with ⟨hf, rfl⟩ | ⟨hf, rfl⟩ | ⟨hf, rfl⟩ | ⟨hf, rfl⟩ | ⟨hf, rfl⟩ | ⟨hf, rfl⟩ | ⟨hf, rfl⟩ | ⟨hf, rfl⟩ | ⟨hf, rfl⟩ <;>
      exact hf
  · simp only [List.mem_cons, Prod.mk.injEq, List.not_mem_nil, or_false] at hmem
    rcases hmem with ⟨hop, rfl⟩ | ⟨hop, rfl⟩ | ⟨hop, rfl⟩ | ⟨hop, rfl⟩ | ⟨hop, rfl⟩
    · exact classify_of_opcode (m := .addi) hop rfl
    · exact classify_of_opcode (m := .slti) hop rfl
    · exact classify_of_opcode (m := .andi) hop rfl
    · exact classify_of_opcode (m := .ori) hop rfl
    · exact classify_of_opcode (m := .xori) hop rfl

/-- Settles O1: eleven closed words, evaluated by the decoder. -/
theorem decodeKnownWords : Obligations.DecodeKnownWords := by
  refine ⟨?_, ?_, ?_, ?_, ?_, ?_, ?_, ?_, ?_, ?_, ?_⟩ <;> rfl

end Sys2Proof.Proofs
end

section
/-! The rest of the ALU (40_alu.md R107 to R115): the shifts, SLT, signed overflow and the codes of no operation: O8, O10, O11
and the ALU half of O12. -/

namespace Sys2Proof.Proofs

open Sys2Proof.Machine Sys2Proof.Laws

/-! ## Signed overflow (R115) -/

/-- R115: ADD overflows exactly when the sum of the signed values leaves the range of a Word. -/
theorem aluFlags_add_v_iff_range (a b : Word) :
    (aluFlags .add a b).v = true ↔ a.toInt + b.toInt < -2 ^ 31 ∨ 2 ^ 31 - 1 < a.toInt + b.toInt := by
  rw [aluFlags_add_v_iff]
  simp only [msb_word, ne_eq, decide_eq_decide, toNat_aluResult_add, toInt_word]
  have ha := a.isLt
  have hb := b.isLt
  split_ifs <;> omega

/-- R115: SUB overflows exactly when the difference of the signed values leaves the range of a Word. -/
theorem aluFlags_sub_v_iff_range (a b : Word) :
    (aluFlags .sub a b).v = true ↔ a.toInt - b.toInt < -2 ^ 31 ∨ 2 ^ 31 - 1 < a.toInt - b.toInt := by
  rw [aluFlags_sub_v_iff]
  simp only [msb_word, ne_eq, decide_eq_decide, toInt_word]
  have hsub := toNat_aluResult_sub a b
  have ha := a.isLt
  have hb := b.isLt
  split_ifs <;> omega

/-- Settles O8: the sign rule of each operation is its range rule. -/
theorem overflowIsSignedRange : Obligations.OverflowIsSignedRange :=
  fun a b => ⟨aluFlags_add_v_iff_range a b, aluFlags_sub_v_iff_range a b⟩

/-! ## The shifts (R107 to R109) -/

theorem toNat_aluResult_sll (a b : Word) :
    (aluResult .sll a b).toNat = a.toNat * 2 ^ (b.toNat % 32) % 2 ^ 32 := by
  rw [aluResult, shiftAmount_eq, BitVec.toNat_shiftLeft, Nat.shiftLeft_eq]

theorem toNat_aluResult_srl (a b : Word) : (aluResult .srl a b).toNat = a.toNat / 2 ^ (b.toNat % 32) := by
  rw [aluResult, shiftAmount_eq, BitVec.toNat_ushiftRight, Nat.shiftRight_eq_div_pow]

theorem toInt_aluResult_sra (a b : Word) : (aluResult .sra a b).toInt = a.toInt / 2 ^ (b.toNat % 32) := by
  rw [aluResult, shiftAmount_eq, BitVec.toInt_sshiftRight, Int.shiftRight_eq_div_pow]
  norm_cast

theorem msb_aluResult_sra (a b : Word) : (aluResult .sra a b).msb = a.msb :=
  BitVec.msb_sshiftRight

/-- Settles O10: codes 5, 6 and 7 are those of the shifts; each clause is a law of its result or its flags. -/
theorem aluShifts : Obligations.AluShifts := by
  intro a b
  exact
    ⟨⟨_, _, alu_code .standard .sll a b, toNat_aluResult_sll a b, aluFlags_z_iff .sll a b, aluFlags_n .sll a b, rfl⟩,
      ⟨_, _, alu_code .standard .srl a b, toNat_aluResult_srl a b, aluFlags_z_iff .srl a b, aluFlags_n .srl a b, rfl⟩,
      ⟨_, _, alu_code .standard .sra a b, toInt_aluResult_sra a b, msb_aluResult_sra a b, aluFlags_z_iff .sra a b,
        (aluFlags_n .sra a b).trans (msb_aluResult_sra a b), rfl⟩⟩

/-! ## SLT (R110) -/

theorem aluResult_slt_of_lt {a b : Word} (h : a.toInt < b.toInt) : aluResult .slt a b = 1 := if_pos h

theorem aluResult_slt_of_le {a b : Word} (h : b.toInt ≤ a.toInt) : aluResult .slt a b = 0 := if_neg (Int.not_lt.mpr h)

theorem aluResult_slt_eq_zero {a b : Word} : aluResult .slt a b = 0 ↔ b.toInt ≤ a.toInt := by
  refine ⟨fun h => Int.not_lt.mp fun hlt => ?_, aluResult_slt_of_le⟩
  rw [aluResult_slt_of_lt hlt] at h
  exact absurd h (by decide)

theorem aluResult_slt_eq_one {a b : Word} : aluResult .slt a b = 1 ↔ a.toInt < b.toInt := by
  refine ⟨fun h => Int.not_le.mp fun hle => ?_, aluResult_slt_of_lt⟩
  rw [aluResult_slt_of_le hle] at h
  exact absurd h (by decide)

theorem msb_aluResult_slt (a b : Word) : (aluResult .slt a b).msb = false := by
  by_cases h : a.toInt < b.toInt
  · rw [aluResult_slt_of_lt h]; rfl
  · rw [aluResult_slt_of_le (Int.not_lt.mp h)]; rfl

/-- R115: less-than is N xor V of the subtraction. -/
theorem toInt_lt_iff_sub_flags (a b : Word) : a.toInt < b.toInt ↔ (aluFlags .sub a b).n ≠ (aluFlags .sub a b).v := by
  have hv := aluFlags_sub_v_iff_range a b
  have hn : (aluFlags .sub a b).n = true ↔ 2 ^ 31 ≤ (aluResult .sub a b).toNat := by
    rw [aluFlags_n, msb_word, decide_eq_true_eq]
  have hne : (aluFlags .sub a b).n ≠ (aluFlags .sub a b).v ↔
      ¬((aluFlags .sub a b).n = true ↔ (aluFlags .sub a b).v = true) := by rw [ne_eq, Bool.eq_iff_iff]
  rw [hne, hv, hn]
  have hsub := toNat_aluResult_sub a b
  have ha := a.isLt
  have hb := b.isLt
  simp only [toInt_word]
  split_ifs <;> omega

/-- Settles O11: code 8 is SLT's. -/
theorem aluSetLessThan : Obligations.AluSetLessThan := by
  intro a b
  exact ⟨_, _, alu_code .standard .slt a b, aluResult_slt_of_lt, aluResult_slt_of_le,
    (aluFlags_z_iff .slt a b).trans aluResult_slt_eq_zero, (aluFlags_n .slt a b).trans (msb_aluResult_slt a b), rfl,
    aluResult_slt_eq_one.trans (toInt_lt_iff_sub_flags a b)⟩

/-! ## Codes of no operation (R112) -/

/-- R112, under every numbering. -/
theorem alu_eq_none {t : AluOpCode} {op : BitVec 4} {a b : Word} : alu t op a b = none ↔ 9 ≤ op.toNat := by
  rw [alu, Option.map_eq_none_iff, aluOpOfCode]
  exact numbering_name_eq_none t.ops

theorem runAlu_eq_none {op : BitVec 4} {a b : Word} {s : State} : runAlu op a b s = none ↔ 9 ≤ op.toNat := by
  rw [runAlu, Option.map_eq_none_iff, alu_eq_none]

end Sys2Proof.Proofs
end

section
/-! The multiplexers and the vectors of the two control units (40_alu.md R112, R121 to R124; 41 R132; 42 R151 to R162): O12, O13,
O17, O18, O19, O58 and O59. -/

namespace Sys2Proof.Proofs

open Sys2Proof.Machine Sys2Proof.Laws

/-! ## Multiplexers -/

theorem mux_of_lt {α : Type} {inputs : List α} {n k : Nat} (hn : inputs.length = n) (h : k < inputs.length) :
    mux n inputs k = .ok inputs[k] := by
  rw [mux, if_neg (by omega), if_neg (by omega), List.getElem?_eq_getElem h]

/-- R122, first reason. -/
theorem mux_of_le {α : Type} {inputs : List α} {n k : Nat} (hn : inputs.length = n) (h : n ≤ k) :
    mux n inputs k = .error (.select k) := by
  rw [mux, if_neg (by omega), if_pos h]

/-- R122, second reason. -/
theorem mux_of_overfull {α : Type} {inputs : List α} {n : Nat} (k : Nat) (h : n < inputs.length) :
    mux n inputs k = .error (.inputCount inputs.length) := if_pos h

/-- R123: a wired multiplexer has as many inputs as names, so a select below their number never fails. -/
theorem wiredMux_of_lt {ι α : Type} {all : List ι} (t : Numbering all) (value : ι → α) {k : Nat} (h : k < all.length) :
    ∃ v, wiredMux t value k = .ok v := by
  have hlen : (t.names.map value).length = all.length := by rw [List.length_map, numbering_length]
  exact ⟨_, mux_of_lt hlen (hlen ▸ h)⟩

/-- A two-bit select other than 3 is below 3. -/
theorem toNat_lt_three {v : BitVec 2} (h : v ≠ 3) : v.toNat < 3 := by
  have hne : v.toNat ≠ 3 := fun heq => h (BitVec.eq_of_toNat_eq heq)
  have := v.isLt
  omega

theorem badSelect_of_ne_three {sig : Signals} (hp : sig.pcSource ≠ 3) (hd : sig.regDst ≠ 3) (hb : sig.aluSrcB ≠ 3) :
    sig.badSelect = none := by
  rw [Signals.badSelect, if_neg (Nat.not_le.mpr (toNat_lt_three hp)), if_neg (Nat.not_le.mpr (toNat_lt_three hd)),
    if_neg (Nat.not_le.mpr (toNat_lt_three hb))]

/-- R122: three is the only bad select of a two-bit wire. -/
theorem badSelect_of_three {sig : Signals} (h : sig.aluSrcB = 3 ∨ sig.pcSource = 3 ∨ sig.regDst = 3) :
    sig.badSelect = some (.select 3) := by
  have hle : ∀ v : BitVec 2, 3 ≤ v.toNat → v.toNat = 3 := fun v _ => by have := v.isLt; omega
  unfold Signals.badSelect
  split
  next hp => rw [hle _ hp]
  next hp =>
    split
    next hd => rw [hle _ hd]
    next hd =>
      rcases h with h | h | h
      · rw [h]; rfl
      · exact absurd (by rw [h]; decide) hp
      · exact absurd (by rw [h]; decide) hd

/-- R173. -/
theorem applying_of_some {sig : Signals} {e : RangeInfo} (h : sig.badSelect = some e) (s : State) (k : Res) :
    applying sig s k = .fault (.outOfRange e s) := by
  rw [applying, h]; rfl

/-- Settles O13: the multiplexer's three answers, and the range check that stands before each phase. -/
theorem multiplexerSelection : Obligations.MultiplexerSelection := by
  refine ⟨fun α inputs n k hn => ⟨mux_of_lt hn, mux_of_le hn⟩, fun α inputs n k => mux_of_overfull k, ?_⟩
  intro sig f w s h
  have hbad := fun k => applying_of_some (badSelect_of_three h) s k
  refine ⟨hbad _, hbad _, hbad _, hbad _, fun p => ?_, hbad _⟩
  cases p <;> exact hbad _

/-- Settles O12: the operands are always selected, so the phase stops at the ALU, before it writes anything. -/
theorem invalidOperationCodes : Obligations.InvalidOperationCodes := by
  refine ⟨fun t op a b => alu_eq_none, ?_⟩
  intro sig f s hop hp hd hb
  obtain ⟨a, ha⟩ : ∃ a, aluSourceA sig.aluSrcA s = .ok a := wiredMux_of_lt _ _ sig.aluSrcA.isLt
  obtain ⟨b, hsb⟩ : ∃ b, aluSourceB sig.aluSrcB f s = .ok b := wiredMux_of_lt _ _ (toNat_lt_three hb)
  simp only [execute, applying_of_none (badSelect_of_ne_three hp hd hb), ha, hsb, runAlu_eq_none.mpr hop, raise]

/-! ## The vectors -/

/-- R37: the code of an operation is at most 8, whatever the numbering. -/
theorem aluCode_le (t : AluOpCode) (op : AluOp) : (aluCode t op).toNat ≤ 8 := by
  rw [aluCode_toNat]
  exact Nat.lt_succ_iff.mp (numbering_code_lt t.ops (mem_aluOp op))

theorem scControl_aluOp (cfg : Config) (c : InstrClass) (z : Bool) :
    (scControl cfg c z).aluOp = aluCode cfg.aluOpCode (executeOp c) := by
  rcases c with op | op | _ | _ | sense | link | _
  case jump => cases link <;> rfl
  all_goals rfl

/-- R132: only STORE asserts `mem_write`, and it does not assert `mem_read`. -/
theorem scControl_memGates (cfg : Config) (c : InstrClass) (z : Bool) :
    ¬((scControl cfg c z).memRead = true ∧ (scControl cfg c z).memWrite = true) := by
  rcases c with op | op | _ | _ | sense | link | _
  case jump => cases link <;> simp [scControl, sig0]
  all_goals simp [scControl, sig0]

/-- The ALU operation of a clock phase (R154 to R158). -/
def phaseOp (p : Phase) (c : InstrClass) : AluOp :=
  match p with
  | .execute => executeOp c
  | .fetch | .decode | .memory | .writeback => .add

theorem mcControl_aluOp {cfg : Config} {p : Phase} {c : InstrClass} {ctl : Bool → Signals}
    (h : mcControl cfg p c = some ctl) (z : Bool) : (ctl z).aluOp = aluCode cfg.aluOpCode (phaseOp p c) := by
  cases p with
  | fetch => cases h; rfl
  | decode => cases h; rfl
  | execute =>
    cases h
    rcases c with op | op | _ | _ | sense | link | _
    case jump => cases link <;> rfl
    all_goals rfl
  | memory => cases c <;> cases h <;> rfl
  | writeback =>
    rcases c with op | op | _ | _ | sense | link | _
    case jump => cases link <;> cases h; rfl
    all_goals cases h <;> rfl

/-- R153: at most one of the two memory gates. -/
theorem mcControl_memGates {cfg : Config} {p : Phase} {c : InstrClass} {ctl : Bool → Signals}
    (h : mcControl cfg p c = some ctl) (z : Bool) : ¬((ctl z).memRead = true ∧ (ctl z).memWrite = true) := by
  cases p with
  | fetch => cases h; simp [fetchVector, sig0]
  | decode => cases h; simp [sig0]
  | execute =>
    cases h
    rcases c with op | op | _ | _ | sense | link | _
    case jump => cases link <;> simp [executeVector, sig0]
    all_goals simp [executeVector, sig0]
  | memory => cases c <;> cases h <;> simp [sig0]
  | writeback =>
    rcases c with op | op | _ | _ | sense | link | _
    case jump => cases link <;> cases h; simp [sig0]
    all_goals cases h <;> simp [sig0]

/-- Settles O17: for either unit, the operation is coded, the selectors are codes, and the gates exclude each other. -/
theorem controlVectorsAreLegal : Obligations.ControlVectorsAreLegal := by
  rintro cfg sig (⟨c, z, rfl⟩ | ⟨p, c, ctl, z, hctl, rfl⟩)
  · exact ⟨scControl_aluOp cfg c z ▸ aluCode_le _ _, badSelect_scControl cfg c z, scControl_memGates cfg c z⟩
  · exact ⟨mcControl_aluOp hctl z ▸ aluCode_le _ _, badSelect_mcControl hctl z, mcControl_memGates hctl z⟩

/-- R37: with the spec's own tables the default vector is zero throughout. -/
theorem sig0_standard {cfg : Config} (ho : cfg.aluOpCode = .standard) (hs : cfg.selCode = .standard) :
    sig0 cfg =
      { pcWrite := false, pcSource := 0, memRead := false, memWrite := false, regWrite := false, regDst := 0, aluSrcA := 0,
        aluSrcB := 0, aluOp := 0, memToReg := 0, irWrite := false } := by
  rw [sig0, ho, hs]; rfl

/-- Settles O18: the named inputs under every table, the numbers under the spec's own. -/
theorem mcPhaseVectors : Obligations.McPhaseVectors := by
  intro cfg c
  refine ⟨⟨fetchVector cfg, rfl, rfl, rfl, rfl, rfl, rfl, rfl⟩, fun ho hs => ?_⟩
  simp only [mcControl, fetchVector]
  rw [sig0_standard ho hs, hs]
  exact ⟨rfl, rfl, rfl, rfl⟩

/-- Settles O19: the table is the definition's own, and its gaps are the control unit's. -/
theorem transitionTable : Obligations.TransitionTable := by
  intro c
  exact ⟨fun _ _ => nextState_eq_none, rfl, rfl, rfl, rfl, rfl⟩

/-- Settles O58: the codes are evaluated; what a code selects is the table law of its multiplexer. -/
theorem standardNumbers : Obligations.StandardNumbers := by
  refine ⟨rfl, rfl, rfl, rfl, rfl, rfl, ?_⟩
  intro s f hs
  have hA := fun x => congrArg (srcACode · x) hs
  have hB := fun x => congrArg (srcBCode · x) hs
  have hD := fun x => congrArg (dataCode · x) hs
  exact ⟨(congrArg (aluSourceA · s) (hA .regA)).symm.trans (aluSourceA_regA s),
    (congrArg (aluSourceA · s) (hA .pc)).symm.trans (aluSourceA_pc s),
    (congrArg (aluSourceB · f s) (hB .regB)).symm.trans (aluSourceB_regB f s),
    (congrArg (aluSourceB · f s) (hB .imm)).symm.trans (aluSourceB_imm f s),
    (congrArg (aluSourceB · f s) (hB .four)).symm.trans (aluSourceB_four f s),
    destination_rt .standard f, destination_rd .standard f, destination_link .standard f,
    (congrArg (writeData · s) (hD .aluOut)).symm.trans (writeData_aluOut s),
    (congrArg (writeData · s) (hD .mdr)).symm.trans (writeData_mdr s)⟩

/-- Settles O59: each row is the default vector with the row's own fields; a BRANCH row turns on the zero flag. -/
theorem scVectors : Obligations.ScVectors := by
  intro cfg zero op ho hs
  simp only [scControl]
  rw [sig0_standard ho hs, ho, hs]
  refine ⟨rfl, rfl, rfl, rfl, ?_, ?_, rfl, rfl, rfl⟩
  · cases zero <;> rfl
  · cases zero <;> rfl

end Sys2Proof.Proofs
end

section
/-! Memory by byte address, and its canonical form (20_memory.md R50 to R55, notes/assumptions/3.md): O15 and O16, from
`Laws/Memory.lean`. -/

namespace Sys2Proof.Proofs

open Sys2Proof.Machine Sys2Proof.Laws

/-- R52, R54. -/
theorem memRead_of_div_lt {s : State} {addr : Word} (h : addr.toNat / 4 < s.cfg.memWords) :
    memRead s addr = some (Memory.read s.mem (addr.toNat / 4)) := by
  rw [memRead_of_lt (by rwa [cellIndex_eq]), cellIndex_eq]

/-- R54. -/
theorem memRead_of_le_div {s : State} {addr : Word} (h : s.cfg.memWords ≤ addr.toNat / 4) : memRead s addr = none :=
  memRead_eq_none.mpr (by rwa [cellIndex_eq])

/-- R52: a read depends on the size and on the cell of the address only. -/
theorem memRead_congr {s t : State} {a b : Word} (hsize : t.cfg.memWords = s.cfg.memWords)
    (hcell : a.toNat / 4 = b.toNat / 4)
    (hread : Memory.read t.mem (b.toNat / 4) = Memory.read s.mem (b.toNat / 4)) : memRead t a = memRead s b := by
  simp only [memRead, cellIndex_eq, hsize, hcell, hread]

/-- R53, R55: what a read shows after a write that succeeded. -/
theorem memRead_memWrite {s t : State} {addr v : Word} (hwf : Memory.wf s.mem = true) (h : memWrite s addr v = some t)
    (a : Word) : memRead t a = if a.toNat / 4 = addr.toNat / 4 then some v else memRead s a := by
  obtain ⟨hlt, rfl⟩ := memWrite_eq_some.mp h
  rw [cellIndex_eq] at hlt
  simp only [memRead, cellIndex_eq, Memory.read_write hwf]
  by_cases hcell : a.toNat / 4 = addr.toNat / 4
  · simp [hcell, hlt]
  · simp [hcell]

/-- Settles O15: the range by the cell index, and the read after the write. -/
theorem memoryReadsAndWrites : Obligations.MemoryReadsAndWrites := by
  intro s addr v hwf
  refine ⟨memRead_of_div_lt, memRead_of_le_div, by rw [memWrite_eq_none, cellIndex_eq], fun t h => ?_⟩
  have hread := memRead_memWrite hwf h
  refine ⟨?_, memWrite_wf hwf h, fun a ha => by rw [hread, if_pos ha], fun a ha => by rw [hread, if_neg ha]⟩
  obtain ⟨_, rfl⟩ := memWrite_eq_some.mp h
  rfl

/-! ## Canonical memories that read alike are equal -/

theorem Memory.wfFrom_cons {lo k : Nat} {v : Word} {rest : Memory} :
    Memory.wfFrom lo ((k, v) :: rest) = true ↔ lo ≤ k ∧ v ≠ 0#32 ∧ Memory.wfFrom (k + 1) rest = true := by
  simp [Memory.wfFrom, and_assoc]

theorem Memory.read_head (k : Nat) (v : Word) (rest : Memory) : Memory.read ((k, v) :: rest) k = v := if_pos rfl

/-- A canonical memory whose first cell is `k` reads 0 below `k`, so one that reads alike begins no earlier. -/
theorem Memory.head_le_of_read_eq {lo lo' k k' : Nat} {v v' : Word} {rest rest' : Memory}
    (h : Memory.wfFrom lo ((k, v) :: rest) = true) (h' : Memory.wfFrom lo' ((k', v') :: rest') = true)
    (hread : ∀ i, Memory.read ((k, v) :: rest) i = Memory.read ((k', v') :: rest') i) : k ≤ k' := by
  obtain ⟨_, hv, hrest⟩ := Memory.wfFrom_cons.mp h
  obtain ⟨_, hv', _⟩ := Memory.wfFrom_cons.mp h'
  by_contra hlt
  have hbelow : Memory.wfFrom k ((k, v) :: rest) = true := Memory.wfFrom_cons.mpr ⟨Nat.le_refl k, hv, hrest⟩
  have hzero := Memory.read_of_lt hbelow (Nat.not_le.mp hlt)
  rw [hread, Memory.read_head] at hzero
  exact hv' hzero

theorem Memory.eq_of_read_eq {lo lo' : Nat} {m m' : Memory} (h : Memory.wfFrom lo m = true) (h' : Memory.wfFrom lo' m' = true)
    (hread : ∀ i, Memory.read m i = Memory.read m' i) : m = m' := by
  induction m generalizing lo lo' m' with
  | nil =>
    cases m' with
    | nil => rfl
    | cons c' rest' =>
      obtain ⟨_, hv', _⟩ := Memory.wfFrom_cons.mp h'
      exact absurd ((Memory.read_head _ _ _).symm.trans (hread c'.1).symm) hv'
  | cons c rest ih =>
    obtain ⟨k, v⟩ := c
    obtain ⟨_, hv, hrest⟩ := Memory.wfFrom_cons.mp h
    cases m' with
    | nil => exact absurd ((Memory.read_head k v rest).symm.trans (hread k)) hv
    | cons c' rest' =>
      obtain ⟨k', v'⟩ := c'
      obtain ⟨_, _, hrest'⟩ := Memory.wfFrom_cons.mp h'
      obtain rfl : k = k' :=
        Nat.le_antisymm (Memory.head_le_of_read_eq h h' hread) (Memory.head_le_of_read_eq h' h fun i => (hread i).symm)
      obtain rfl : v = v' := by simpa only [Memory.read_head] using hread k
      rw [ih hrest hrest' fun i => ?_]
      by_cases hi : i = k
      · rw [Memory.read_of_lt hrest (by omega), Memory.read_of_lt hrest' (by omega)]
      · simpa [Memory.read, hi] using hread i

/-- Settles O16, by induction on the two lists. -/
theorem canonicalMemoryIsUnique : Obligations.CanonicalMemoryIsUnique :=
  fun _ _ h h' hread => Memory.eq_of_read_eq h h' hread

end Sys2Proof.Proofs
end

section
/-! One step (43_datapath.md R180, R181; 60_exceptions.md R260 to R269): the word in force, what a step answers in each state, and
when it fails or is refused: O6, O31, O34, O35, O37, O36, O38, O39, O40 and O44. -/

namespace Sys2Proof.Proofs

open Sys2Proof.Machine Sys2Proof.Laws

/-! ## Runs -/

/-- A run of `core` in the machine's own types. -/
def steps : Nat → State → Res
  | 0, s => .next s
  | k + 1, s => andThen (step s) (steps k)

theorem run_eq_steps (n : Nat) (s : State) : Host.Core.run core n s = steps n s := by
  induction n generalizing s with
  | zero => rfl
  | succ n ih =>
    have hstep : core.step s = step s := rfl
    cases h : step s with
    | next t => simp only [Host.Core.run, hstep, steps, h, andThen_next]; exact ih t
    | fault f => simp only [Host.Core.run, hstep, steps, h, andThen_fault]; rfl
    | refused q => simp only [Host.Core.run, hstep, steps, h, andThen_refused]; rfl

theorem steps_succ_of_next {k : Nat} {s t : State} (h : step s = .next t) : steps (k + 1) s = steps k t := by
  rw [steps, h, andThen_next]

theorem steps_succ_of_fault {k : Nat} {s : State} {f : Fault} (h : step s = .fault f) : steps (k + 1) s = .fault f := by
  rw [steps, h, andThen_fault]

theorem steps_one (s : State) : steps 1 s = step s := by
  cases h : step s with
  | next t => rw [steps_succ_of_next h]; rfl
  | fault f => exact steps_succ_of_fault h
  | refused q => rw [steps, h, andThen_refused]

/-- A run is cut in two at any point. -/
theorem steps_add (m n : Nat) (s : State) : steps (m + n) s = andThen (steps m s) (steps n) := by
  induction m generalizing s with
  | zero => rw [Nat.zero_add, steps, andThen_next]
  | succ m ih =>
    rw [Nat.succ_add, steps, steps]
    cases step s with
    | next t => rw [andThen_next, andThen_next, ih]
    | fault f => rfl
    | refused q => rfl

/-! ## The word in force -/

theorem wordInForce_of_fetch {s : State} (h : s.cfg.variant = .single ∨ s.fsm = .fetch) :
    wordInForce s = memRead s s.pc := by
  unfold wordInForce
  rcases h with h | h
  · rw [h]
  · rw [h]; cases s.cfg.variant <;> rfl

theorem wordInForce_of_late {s : State} (hv : s.cfg.variant = .multi) (h : s.fsm ≠ .fetch) : wordInForce s = some s.ir := by
  unfold wordInForce
  rw [hv]
  cases hp : s.fsm with
  | fetch => exact absurd hp h
  | decode | execute | memory | writeback => rfl

/-- Settles O6: the two cases of the word in force, and the definition of a step on it. -/
theorem stepRunsDecodedInstruction : Obligations.StepRunsDecodedInstruction :=
  ⟨fun _ => wordInForce_of_fetch, fun _ => wordInForce_of_late, fun _ _ _ hw hi => by simp only [step, hw, hi]⟩

/-- Since decoding drops no bit, a step on an instruction is the instruction's class run on the word in force. -/
theorem step_eq_runInstr {s : State} {w : Word} {c : InstrClass} (hw : wordInForce s = some w)
    (hc : classify s.cfg.isa w = .ok c) : step s = runInstr w c s :=
  step_of_class encodeDecode hw hc

theorem step_eq_scInstr {s : State} {w : Word} {c : InstrClass} (hv : s.cfg.variant = .single)
    (hm : memRead s s.pc = some w) (hc : classify s.cfg.isa w = .ok c) : step s = scInstr w c s := by
  rw [step_eq_runInstr ((wordInForce_of_fetch (.inl hv)).trans hm) hc, runInstr_single hv]

theorem step_eq_mcInstr {s : State} {w : Word} {c : InstrClass} (hv : s.cfg.variant = .multi)
    (hw : wordInForce s = some w) (hc : classify s.cfg.isa w = .ok c) : step s = mcInstr w c s := by
  rw [step_eq_runInstr hw hc, runInstr_multi hv]

/-- From DECODE on a multi-cycle step works on IR. -/
theorem step_eq_mcInstr_ir {s : State} {c : InstrClass} (hv : s.cfg.variant = .multi) (hp : s.fsm ≠ .fetch)
    (hc : classify s.cfg.isa s.ir = .ok c) : step s = mcInstr s.ir c s :=
  step_eq_mcInstr hv (wordInForce_of_late hv hp) hc

/-! ## FETCH and DECODE complete for every word -/

/-- The state after the FETCH phase on the word `w` (R154). -/
def afterFetch (w : Word) (s : State) : State :=
  { s with ir := w, pc := s.pc + 4, flags := aluFlags .add s.pc 4, fsm := .decode, cycles := s.cycles + 1 }

/-- The state after the DECODE phase (R155). -/
def afterDecode (s : State) : State :=
  { s with a := s.reg (rsOf s.ir), b := s.reg (rtOf s.ir), fsm := .execute, cycles := s.cycles + 1 }

theorem step_fetch {s : State} {w : Word} (hv : s.cfg.variant = .multi) (hp : s.fsm = .fetch)
    (hm : memRead s s.pc = some w) : step s = .next (afterFetch w s) := by
  have hw : wordInForce s = some w := (wordInForce_of_fetch (.inr hp)).trans hm
  cases hc : classify s.cfg.isa w with
  | ok c => rw [step_eq_mcInstr hv hw hc, mcInstr_fetch hp]; rfl
  | error e =>
    rw [step_of_illegal hw hc]
    simp only [runIllegal, hv, hp, mcPhase_fetch, tick_next, afterFetch]

theorem step_decode {s : State} (hv : s.cfg.variant = .multi) (hp : s.fsm = .decode) : step s = .next (afterDecode s) := by
  have hne : s.fsm ≠ .fetch := by rw [hp]; decide
  cases hc : classify s.cfg.isa s.ir with
  | ok c => rw [step_eq_mcInstr_ir hv hne hc, mcInstr_decode hp]; rfl
  | error e =>
    rw [step_of_illegal (wordInForce_of_late hv hne) hc]
    have hphase := mcPhase_decode (ctl := fun _ => sig0 s.cfg) (badSelect_sig0 s.cfg) s.ir s
    simp only [runIllegal, hv, hp, hphase, tick_next]
    rfl

/-- Settles O31: the two phases look at the word only to store it or to read its register fields. -/
theorem mcFetchAndDecodePhases : Obligations.McFetchAndDecodePhases :=
  fun _ _ hv => ⟨step_fetch hv, step_decode hv⟩

/-- The first two clock phases of any word. -/
theorem steps_two {s : State} {w : Word} (hv : s.cfg.variant = .multi) (hp : s.fsm = .fetch)
    (hm : memRead s s.pc = some w) : steps 2 s = .next (afterDecode (afterFetch w s)) := by
  rw [steps_succ_of_next (step_fetch hv hp hm), steps_one]
  exact step_decode (s := afterFetch w s) hv rfl

/-! ## Fetch errors and illegal words -/

theorem step_of_fetch_none {s : State} (h : s.cfg.variant = .single ∨ s.fsm = .fetch) (hm : memRead s s.pc = none) :
    step s = .fault (.outOfRange (.address s.pc) s) :=
  step_of_none ((wordInForce_of_fetch h).trans hm)

/-- Settles O34: there is no word in force, so nothing of the step has run. -/
theorem fetchOutsideMemory : Obligations.FetchOutsideMemory :=
  fun _ h hle => step_of_fetch_none h (memRead_of_le_div hle)

/-- R265, single-cycle. -/
theorem step_single_illegal {s : State} {w : Word} {e : DecodeReject} (hv : s.cfg.variant = .single)
    (hm : memRead s s.pc = some w) (hc : classify s.cfg.isa w = .error e) :
    step s = .fault (.decodeError w { s with ir := w }) := by
  rw [step_of_illegal ((wordInForce_of_fetch (.inl hv)).trans hm) hc]
  simp only [runIllegal, hv, raise]

/-- R265, multi-cycle: from EXECUTE on. -/
theorem step_late_illegal {s : State} {e : DecodeReject} (hv : s.cfg.variant = .multi) (hf : s.fsm ≠ .fetch)
    (hd : s.fsm ≠ .decode) (hc : classify s.cfg.isa s.ir = .error e) : step s = .fault (.decodeError s.ir s) := by
  rw [step_of_illegal (wordInForce_of_late hv hf) hc]
  cases hp : s.fsm with
  | fetch => exact absurd hp hf
  | decode => exact absurd hp hd
  | execute | memory | writeback => simp only [runIllegal, hv, hp, raise]

/-- Settles O35: the third clause runs FETCH and DECODE and then the second. -/
theorem illegalWordRaisesDecodeError : Obligations.IllegalWordRaisesDecodeError := by
  rintro s w ⟨e, hc⟩
  refine ⟨fun hv hm => step_single_illegal hv hm hc, fun hv hp hir => ?_, fun hv hp hm => ?_⟩
  · subst hir
    exact step_late_illegal hv (by rw [hp]; decide) (by rw [hp]; decide) hc
  · refine (run_eq_steps 3 s).trans ?_
    rw [steps_add 2 1, steps_two hv hp hm, andThen_next, steps_one]
    exact step_late_illegal (s := afterDecode (afterFetch w s)) hv (by decide : Phase.execute ≠ .fetch)
      (by decide : Phase.execute ≠ .decode) hc

/-! ## What one instruction's failure leaves -/

/-- R231, R232: single-cycle, an instruction fails at the data access of LW and SW only. -/
theorem scInstr_fault {w : Word} {c : InstrClass} {s : State} {f : Fault} (h : scInstr w c s = .fault f) :
    (c = .load ∨ c = .store) ∧ s.cfg.memWords ≤ cellIndex (scBeforeMemory w c s).aluOut ∧
      f = .outOfRange (.address (scBeforeMemory w c s).aluOut) (scBeforeMemory w c s) := by
  rcases c with op | op | _ | _ | sense | link | _
  · rw [scInstr_rType] at h; cases h
  · rw [scInstr_iType] at h; cases h
  · rw [scInstr_load] at h
    cases hm : memRead s (scBeforeMemory w .load s).aluOut with
    | some v => rw [hm] at h; cases h
    | none => rw [hm] at h; cases h; exact ⟨.inl rfl, memRead_eq_none.mp hm, rfl⟩
  · rw [scInstr_store] at h
    split at h
    next => cases h
    next hnot => cases h; exact ⟨.inr rfl, Nat.not_lt.mp hnot, rfl⟩
  · rw [scInstr_branch] at h; cases h
  · cases link
    · rw [scInstr_jump] at h; cases h
    · rw [scInstr_jumpLink] at h; cases h
  · rw [scInstr_halt] at h; cases h

theorem scInstr_ne_refused (w : Word) (c : InstrClass) (s : State) (q : Refusal) : scInstr w c s ≠ .refused q := by
  intro h
  rcases c with op | op | _ | _ | sense | link | _
  · rw [scInstr_rType] at h; cases h
  · rw [scInstr_iType] at h; cases h
  · rw [scInstr_load] at h
    split at h <;> cases h
  · rw [scInstr_store] at h
    split at h <;> cases h
  · rw [scInstr_branch] at h; cases h
  · cases link
    · rw [scInstr_jump] at h; cases h
    · rw [scInstr_jumpLink] at h; cases h
  · rw [scInstr_halt] at h; cases h

/-- R266: the MEMORY phase of LW and SW outside memory. -/
theorem mcInstr_memory_outside {w : Word} {c : InstrClass} {s : State} (hp : s.fsm = .memory)
    (hc : c = .load ∨ c = .store) (hle : s.cfg.memWords ≤ cellIndex s.aluOut) :
    mcInstr w c s = .fault (.outOfRange (.address s.aluOut) s) := by
  rcases hc with rfl | rfl
  · rw [mcInstr_memory_load hp, memRead_eq_none.mpr hle]
  · rw [mcInstr_memory_store hp, memWrite_eq_none.mpr hle]

/-- R266: and no other phase fails. -/
theorem mcInstr_fault {w : Word} {c : InstrClass} {s : State} {f : Fault} (h : mcInstr w c s = .fault f) :
    s.fsm = .memory ∧ (c = .load ∨ c = .store) ∧ s.cfg.memWords ≤ cellIndex s.aluOut ∧
      f = .outOfRange (.address s.aluOut) s := by
  cases hp : s.fsm with
  | fetch => rw [mcInstr_fetch hp] at h; cases h
  | decode => rw [mcInstr_decode hp] at h; cases h
  | execute => rw [mcInstr_execute hp] at h; cases h
  | writeback =>
    rw [mcInstr_writeback hp] at h
    split at h <;> cases h
  | memory =>
    refine ⟨rfl, ?_⟩
    by_cases hl : c = .load
    · subst hl
      rw [mcInstr_memory_load hp] at h
      cases hm : memRead s s.aluOut with
      | some v => rw [hm] at h; cases h
      | none => rw [hm] at h; cases h; exact ⟨.inl rfl, memRead_eq_none.mp hm, rfl⟩
    · by_cases hs : c = .store
      · subst hs
        rw [mcInstr_memory_store hp] at h
        cases hm : memWrite s s.aluOut s.b with
        | some t => rw [hm] at h; cases h
        | none => rw [hm] at h; cases h; exact ⟨.inr rfl, memWrite_eq_none.mp hm, rfl⟩
      · rw [mcInstr_memory_refused hp w hl hs] at h; cases h

/-- R158, R161: WRITEBACK has no register to write exactly where it has no vector. -/
theorem writebackOf_eq_none {w : Word} {c : InstrClass} {s : State} {cfg : Config} :
    writebackOf w c s = none ↔ mcControl cfg .writeback c = none := by
  rcases c with op | op | _ | _ | sense | link | _
  case jump => cases link <;> simp [writebackOf, mcControl]
  all_goals simp [writebackOf, mcControl]

/-- R161, D32: a phase is refused exactly where the unit has no vector. -/
theorem mcInstr_refused_iff {w : Word} {c : InstrClass} {s : State} {q : Refusal} :
    mcInstr w c s = .refused q ↔ q = .unreachablePhase s.fsm ∧ mcControl s.cfg s.fsm c = none := by
  constructor
  · intro h
    cases hp : s.fsm with
    | fetch => rw [mcInstr_fetch hp] at h; cases h
    | decode => rw [mcInstr_decode hp] at h; cases h
    | execute => rw [mcInstr_execute hp] at h; cases h
    | writeback =>
      rw [mcInstr_writeback hp] at h
      cases hwb : writebackOf w c s with
      | some dv => rw [hwb] at h; cases h
      | none => rw [hwb] at h; cases h; exact ⟨rfl, writebackOf_eq_none.mp hwb⟩
    | memory =>
      by_cases hl : c = .load
      · subst hl
        rw [mcInstr_memory_load hp] at h
        split at h <;> cases h
      · by_cases hs : c = .store
        · subst hs
          rw [mcInstr_memory_store hp] at h
          split at h <;> cases h
        · rw [mcInstr_memory_refused hp w hl hs] at h
          cases h
          refine ⟨rfl, ?_⟩
          cases c <;> simp_all [mcControl]
  · rintro ⟨rfl, hctl⟩
    simp only [mcInstr, hctl]

/-! ## When a step fails -/

/-- Everything that makes a single-cycle step fail: the fetch, the word, or the data access. -/
theorem step_single_fault {s : State} {f : Fault} (hv : s.cfg.variant = .single) (h : step s = .fault f) :
    (memRead s s.pc = none ∧ f = .outOfRange (.address s.pc) s) ∨
    ∃ w, memRead s s.pc = some w ∧
      ((∃ e, classify s.cfg.isa w = .error e ∧ f = .decodeError w { s with ir := w }) ∨
        ∃ c, classify s.cfg.isa w = .ok c ∧ (c = .load ∨ c = .store) ∧
          s.cfg.memWords ≤ cellIndex (scBeforeMemory w c s).aluOut ∧
          f = .outOfRange (.address (scBeforeMemory w c s).aluOut) (scBeforeMemory w c s)) := by
  cases hm : memRead s s.pc with
  | none => rw [step_of_fetch_none (.inl hv) hm] at h; cases h; exact .inl ⟨rfl, rfl⟩
  | some w =>
    refine .inr ⟨w, rfl, ?_⟩
    cases hc : classify s.cfg.isa w with
    | error e => rw [step_single_illegal hv hm hc] at h; cases h; exact .inl ⟨e, rfl, rfl⟩
    | ok c => rw [step_eq_scInstr hv hm hc] at h; exact .inr ⟨c, rfl, scInstr_fault h⟩

/-- Everything that makes a multi-cycle step fail; the state left is the state itself each time (R181). -/
theorem step_multi_fault {s : State} {f : Fault} (hv : s.cfg.variant = .multi) (h : step s = .fault f) :
    (memRead s s.pc = none ∧ f = .outOfRange (.address s.pc) s) ∨
    (∃ e, classify s.cfg.isa s.ir = .error e ∧ f = .decodeError s.ir s) ∨
    (s.cfg.memWords ≤ cellIndex s.aluOut ∧ f = .outOfRange (.address s.aluOut) s) := by
  by_cases hf : s.fsm = .fetch
  · cases hm : memRead s s.pc with
    | none => rw [step_of_fetch_none (.inr hf) hm] at h; cases h; exact .inl ⟨rfl, rfl⟩
    | some w => rw [step_fetch hv hf hm] at h; cases h
  · cases hc : classify s.cfg.isa s.ir with
    | ok c =>
      rw [step_eq_mcInstr_ir hv hf hc] at h
      obtain ⟨_, _, hle, rfl⟩ := mcInstr_fault h
      exact .inr (.inr ⟨hle, rfl⟩)
    | error e =>
      by_cases hd : s.fsm = .decode
      · rw [step_decode hv hd] at h; cases h
      · rw [step_late_illegal hv hf hd hc] at h; cases h; exact .inr (.inl ⟨e, rfl, rfl⟩)

theorem left_of_step_multi_fault {s : State} {f : Fault} (hv : s.cfg.variant = .multi) (h : step s = .fault f) :
    f.left = s := by
  obtain ⟨_, rfl⟩ | ⟨_, _, rfl⟩ | ⟨_, rfl⟩ := step_multi_fault hv h <;> rfl

/-- Settles O36, from the inversion of a failing multi-cycle step. -/
theorem mcFailingStepChangesNothing : Obligations.McFailingStepChangesNothing :=
  fun _ _ => left_of_step_multi_fault

/-- Settles O37: LW reads and SW writes at ALUOut in MEMORY. -/
theorem mcDataAccessOutsideMemory : Obligations.McDataAccessOutsideMemory := by
  intro s i hv hp hi hc hle
  have hcls : classify s.cfg.isa s.ir = .ok (classOf i) := classify_eq_ok.mpr ⟨i, hi, rfl⟩
  rw [step_eq_mcInstr_ir hv (by rw [hp]; decide) hcls]
  exact mcInstr_memory_outside hp hc (by rwa [cellIndex_eq])

/-- Settles O38: the two inversions name no other error. -/
theorem stepErrorsAreTwo : Obligations.StepErrorsAreTwo := by
  intro s f h
  cases hv : s.cfg.variant with
  | single =>
    obtain ⟨hm, rfl⟩ | ⟨w, _, ⟨e, hc, rfl⟩ | ⟨c, _, _, hle, rfl⟩⟩ := step_single_fault hv h
    · exact .inl ⟨s.pc, rfl, cellIndex_eq s.pc ▸ memRead_eq_none.mp hm⟩
    · exact .inr ⟨w, e, rfl, hc⟩
    · exact .inl ⟨_, rfl, cellIndex_eq _ ▸ hle⟩
  | multi =>
    obtain ⟨hm, rfl⟩ | ⟨e, hc, rfl⟩ | ⟨hle, rfl⟩ := step_multi_fault hv h
    · exact .inl ⟨s.pc, rfl, cellIndex_eq s.pc ▸ memRead_eq_none.mp hm⟩
    · exact .inr ⟨s.ir, e, rfl, hc⟩
    · exact .inl ⟨s.aluOut, rfl, cellIndex_eq s.aluOut ▸ hle⟩

/-! ## Stepping on after an error (R268) -/

/-- R268: the state left fails in the same way. -/
theorem step_left {s : State} {f : Fault} (h : step s = .fault f)
    (hcase : s.cfg.variant = .multi ∨ memRead s s.pc = none ∨ ∃ w, f = .decodeError w f.left) : step f.left = .fault f := by
  cases hv : s.cfg.variant with
  | multi => rwa [left_of_step_multi_fault hv h]
  | single =>
    obtain ⟨_, rfl⟩ | ⟨w, hm, ⟨e, hc, rfl⟩ | ⟨c, _, _, _, rfl⟩⟩ := step_single_fault hv h
    · exact h
    · exact step_single_illegal (s := { s with ir := w }) hv hm hc
    · rw [hm, hv] at hcase
      obtain h1 | h2 | ⟨w', h3⟩ := hcase
      · cases h1
      · cases h2
      · cases h3

/-- Settles O39: the first step of the further run already fails in the same way. -/
theorem sameErrorAgain : Obligations.SameErrorAgain :=
  fun _ _ h hcase n => (run_eq_steps (n + 1) _).trans (steps_succ_of_fault (step_left h hcase))

/-- R230: the state in which the data access of LW and SW begins has PC on the next word. -/
theorem scBeforeMemory_pc_access {w : Word} {c : InstrClass} {s : State} (hc : c = .load ∨ c = .store) :
    (scBeforeMemory w c s).pc = s.pc + 4 := by
  rcases hc with rfl | rfl <;> rfl

/-- Settles O40: what is left is the state before the data access, and the next fetch reads the memory it began with. -/
theorem scDataErrorIsSkipped : Obligations.ScDataErrorIsSkipped := by
  rintro s f w hv h hm ⟨c, hc⟩
  rw [step_eq_scInstr hv hm hc] at h
  obtain ⟨hls, _, rfl⟩ := scInstr_fault h
  have hpc := scBeforeMemory_pc_access (w := w) (s := s) hls
  refine ⟨hpc, rfl, rfl, rfl, rfl, ?_⟩
  have hnext : wordInForce (scBeforeMemory w c s) = memRead (scBeforeMemory w c s) (scBeforeMemory w c s).pc :=
    wordInForce_of_fetch (.inl hv)
  rw [hpc] at hnext
  exact hnext

/-! ## When a step is refused -/

theorem mcControl_eq_none_phase {cfg : Config} {p : Phase} {c : InstrClass} (h : mcControl cfg p c = none) :
    p = .memory ∨ p = .writeback := by
  cases p with
  | fetch | decode | execute => cases h
  | memory => exact .inl rfl
  | writeback => exact .inr rfl

/-- Settles O44: FETCH, DECODE, an illegal word and the single-cycle machine are never refused; what is left is a phase on IR. -/
theorem refusedOnlyWithoutVector : Obligations.RefusedOnlyWithoutVector := by
  intro s q
  constructor
  · intro h
    cases hv : s.cfg.variant with
    | single =>
      cases hm : memRead s s.pc with
      | none => rw [step_of_fetch_none (.inl hv) hm] at h; cases h
      | some w =>
        cases hc : classify s.cfg.isa w with
        | error e => rw [step_single_illegal hv hm hc] at h; cases h
        | ok c => rw [step_eq_scInstr hv hm hc] at h; exact absurd h (scInstr_ne_refused w c s q)
    | multi =>
      by_cases hf : s.fsm = .fetch
      · cases hm : memRead s s.pc with
        | none => rw [step_of_fetch_none (.inr hf) hm] at h; cases h
        | some w => rw [step_fetch hv hf hm] at h; cases h
      · by_cases hd : s.fsm = .decode
        · rw [step_decode hv hd] at h; cases h
        · cases hc : classify s.cfg.isa s.ir with
          | error e => rw [step_late_illegal hv hf hd hc] at h; cases h
          | ok c =>
            rw [step_eq_mcInstr_ir hv hf hc, mcInstr_refused_iff] at h
            obtain ⟨rfl, hctl⟩ := h
            exact ⟨rfl, rfl, mcControl_eq_none_phase hctl, c, rfl, hctl⟩
  · rintro ⟨hv, rfl, hp, c, hc, hctl⟩
    have hf : s.fsm ≠ .fetch := by rcases hp with hp | hp <;> rw [hp] <;> decide
    rw [step_eq_mcInstr_ir hv hf hc, mcInstr_refused_iff]
    exact ⟨rfl, hctl⟩

end Sys2Proof.Proofs
end

section
/-! The two variants compared (43_datapath.md R182) and the multi-cycle FSM (42_control_multi_cycle.md R151, R156 to R160): O33,
O20, O21 and O32. -/

namespace Sys2Proof.Proofs

open Sys2Proof.Machine Sys2Proof.Laws

/-! ## The same contents under another configuration -/

/-- The same contents with the configuration changed by `g`. -/
def mapCfg (g : Config → Config) (s : State) : State := { s with cfg := g s.cfg }

/-- The same error with the state it leaves changed by `m`. -/
def mapLeft (m : State → State) : Fault → Fault
  | .invalidOperation op s => .invalidOperation op (m s)
  | .outOfRange e s => .outOfRange e (m s)
  | .decodeError w s => .decodeError w (m s)

/-- The same outcome with the state it carries changed by `m`. -/
def mapOutcome (m : State → State) : Res → Res
  | .next s => .next (m s)
  | .fault f => .fault (mapLeft m f)
  | .refused q => .refused q

theorem mapOutcome_eq_next {m : State → State} {r : Res} {t : State} (h : mapOutcome m r = .next t) :
    ∃ u, r = .next u ∧ t = m u := by
  cases r with
  | next u => cases h; exact ⟨u, rfl, rfl⟩
  | fault f => cases h
  | refused q => cases h

section
variable {g : Config → Config} (hsize : ∀ c, (g c).memWords = c.memWords) (s : State)

/-- R180: what is written before the data access depends on no parameter. -/
theorem scBeforeMemory_mapCfg (w : Word) (c : InstrClass) :
    scBeforeMemory w c (mapCfg g s) = mapCfg g (scBeforeMemory w c s) := by
  rcases c with op | op | _ | _ | sense | link | _
  case jump => cases link <;> rfl
  all_goals rfl

include hsize

theorem memRead_mapCfg (a : Word) : memRead (mapCfg g s) a = memRead s a :=
  memRead_congr (hsize s.cfg) rfl rfl

theorem memWrite_mapCfg (a v : Word) : memWrite (mapCfg g s) a v = (memWrite s a v).map (mapCfg g) := by
  change (if cellIndex a < (g s.cfg).memWords then _ else _) = _
  rw [hsize]
  unfold memWrite
  split <;> rfl

/-- A single-cycle instruction does the same to the same contents, whatever the variant and the numberings. -/
theorem scInstr_mapCfg (w : Word) (c : InstrClass) :
    scInstr w c (mapCfg g s) = mapOutcome (mapCfg g) (scInstr w c s) := by
  rcases c with op | op | _ | _ | sense | link | _
  · rw [scInstr_rType, scInstr_rType, scBeforeMemory_mapCfg]; rfl
  · rw [scInstr_iType, scInstr_iType, scBeforeMemory_mapCfg]; rfl
  · rw [scInstr_load, scInstr_load, scBeforeMemory_mapCfg, memRead_mapCfg hsize]
    change (match memRead s (scBeforeMemory w .load s).aluOut with | some v => _ | none => _) = _
    cases memRead s (scBeforeMemory w .load s).aluOut <;> rfl
  · rw [scInstr_store, scInstr_store, scBeforeMemory_mapCfg]
    change (if cellIndex (scBeforeMemory w .store s).aluOut < (g s.cfg).memWords then _ else _) = _
    rw [hsize]
    split <;> rfl
  · rw [scInstr_branch, scInstr_branch, scBeforeMemory_mapCfg]; rfl
  · cases link
    · rw [scInstr_jump, scInstr_jump, scBeforeMemory_mapCfg]; rfl
    · rw [scInstr_jumpLink, scInstr_jumpLink, scBeforeMemory_mapCfg]; rfl
  · rw [scInstr_halt, scInstr_halt, scBeforeMemory_mapCfg]; rfl

end

/-- R6: an instruction changes no parameter. -/
theorem scInstr_cfg {w : Word} {c : InstrClass} {s t : State} (h : scInstr w c s = .next t) : t.cfg = s.cfg := by
  obtain ⟨_, rfl⟩ | ⟨_, rfl⟩ | ⟨_, _, _, rfl⟩ | ⟨_, _, rfl⟩ | ⟨_, rfl⟩ | ⟨_, rfl⟩ := scInstr_next h <;> rfl

/-! ## The first three phases -/

/-- The state of the multi-cycle machine after FETCH, DECODE and EXECUTE of the word `w` of class `c`. -/
def mcBeforeMemory (w : Word) (c : InstrClass) (s : State) : State :=
  { executeAfter c (fields w) (afterDecode (afterFetch w s)) with
    fsm := (nextState .execute c).getD .fetch, cycles := s.cycles + 3 }

theorem steps_three {s : State} {w : Word} {c : InstrClass} (hv : s.cfg.variant = .multi) (hp : s.fsm = .fetch)
    (hm : memRead s s.pc = some w) (hc : classify s.cfg.isa w = .ok c) : steps 3 s = .next (mcBeforeMemory w c s) := by
  rw [steps_add 2 1, steps_two hv hp hm, andThen_next, steps_one]
  have hstep : step (afterDecode (afterFetch w s)) = mcInstr w c (afterDecode (afterFetch w s)) :=
    step_eq_mcInstr_ir hv (by decide : Phase.execute ≠ .fetch) hc
  rw [hstep, mcInstr_execute rfl]
  rfl

/-- The phases after EXECUTE work on the word latched by FETCH. -/
theorem step_mcBeforeMemory {s : State} {w : Word} {c : InstrClass} (hv : s.cfg.variant = .multi)
    (hc : classify s.cfg.isa w = .ok c) (hne : (mcBeforeMemory w c s).fsm ≠ .fetch) :
    step (mcBeforeMemory w c s) = mcInstr w c (mcBeforeMemory w c s) :=
  step_eq_mcInstr_ir (s := mcBeforeMemory w c s) hv hne hc

/-- R182, by class: where the variants differ. -/
def classDifference (c : InstrClass) (s t : State) : State :=
  match c with
  | .jump true => { t with x := s.x }
  | .halt => { t with pc := s.pc + 4 }
  | .rType _ | .iType _ | .load | .store | .branch _ | .jump false => t

theorem variantDifference_eq (i : Instr) (s t : State) : variantDifference i s t = classDifference (classOf i) s t := by
  cases i <;> rfl

/-- R182: after EXECUTE the multi-cycle machine holds what the single-cycle one holds before its data access. -/
theorem mcBeforeMemory_eq (w : Word) (c : InstrClass) (s : State) :
    mcBeforeMemory w c s =
      { classDifference c s (scBeforeMemory w c s) with
        fsm := (nextState .execute c).getD .fetch, cycles := s.cycles + 3 } := by
  rcases c with op | op | _ | _ | sense | link | _
  case jump => cases link <;> rfl
  all_goals rfl

/-! ## All phases of one instruction -/

/-- The state after the MEMORY phase of a LW whose data is `v` (R157). -/
def mcAfterLoad (w v : Word) (s : State) : State :=
  { mcBeforeMemory w .load s with mdr := v, fsm := .writeback, cycles := s.cycles + 4 }

/-- R182: if the single-cycle instruction completes in `t`, the phases of its class complete in `t`, but for the difference. -/
theorem steps_of_scInstr_next {s t : State} {w : Word} {c : InstrClass} (hv : s.cfg.variant = .multi) (hp : s.fsm = .fetch)
    (hm : memRead s s.pc = some w) (hc : classify s.cfg.isa w = .ok c) (h : scInstr w c s = .next t) :
    steps (phaseCount c) s =
      .next { classDifference c s t with fsm := .fetch, cycles := s.cycles + phaseCount c } := by
  have h3 := steps_three hv hp hm hc
  have hstep := step_mcBeforeMemory hv hc
  rcases c with op | op | _ | _ | sense | link | _
  · rw [scInstr_rType] at h
    cases h
    rw [phaseCount, steps_add 3 1, h3, andThen_next, steps_one, hstep (by decide : Phase.writeback ≠ .fetch),
      mcInstr_writeback rfl]
    rfl
  · rw [scInstr_iType] at h
    cases h
    rw [phaseCount, steps_add 3 1, h3, andThen_next, steps_one, hstep (by decide : Phase.writeback ≠ .fetch),
      mcInstr_writeback rfl]
    rfl
  · rw [scInstr_load] at h
    cases hr : memRead s (scBeforeMemory w .load s).aluOut with
    | none => rw [hr] at h; cases h
    | some v =>
      rw [hr] at h
      cases h
      have hload : step (mcBeforeMemory w .load s) = .next (mcAfterLoad w v s) := by
        have hread : memRead (mcBeforeMemory w .load s) (mcBeforeMemory w .load s).aluOut = some v := hr
        rw [hstep (by decide : Phase.memory ≠ .fetch), mcInstr_memory_load rfl, hread]
        rfl
      have hback : step (mcAfterLoad w v s) = mcInstr w .load (mcAfterLoad w v s) :=
        step_eq_mcInstr_ir hv (by decide : Phase.writeback ≠ .fetch) hc
      rw [phaseCount, steps_add 3 2, h3, andThen_next, steps_succ_of_next hload, steps_one, hback, mcInstr_writeback rfl]
      rfl
  · rw [scInstr_store] at h
    split at h
    next hlt =>
      cases h
      have hwrite := (memWrite_eq_some (s := mcBeforeMemory w .store s) (addr := (mcBeforeMemory w .store s).aluOut)
        (v := (mcBeforeMemory w .store s).b)).mpr ⟨hlt, rfl⟩
      rw [phaseCount, steps_add 3 1, h3, andThen_next, steps_one, hstep (by decide : Phase.memory ≠ .fetch),
        mcInstr_memory_store rfl, hwrite]
      rfl
    next => cases h
  · rw [scInstr_branch] at h
    cases h
    rw [phaseCount, h3, mcBeforeMemory_eq]
    rfl
  · cases link
    · rw [scInstr_jump] at h
      cases h
      rw [phaseCount, h3, mcBeforeMemory_eq]
      rfl
    · rw [scInstr_jumpLink] at h
      cases h
      rw [phaseCount, h3, mcBeforeMemory_eq]
      rfl
  · rw [scInstr_halt] at h
    cases h
    rw [phaseCount, h3, mcBeforeMemory_eq]
    rfl

/-- R266: LW and SW outside memory fail in the fourth phase, on the state that the single-cycle step leaves. -/
theorem steps_four_outside {s : State} {w : Word} {c : InstrClass} (hv : s.cfg.variant = .multi) (hp : s.fsm = .fetch)
    (hm : memRead s s.pc = some w) (hc : classify s.cfg.isa w = .ok c) (hls : c = .load ∨ c = .store)
    (hle : s.cfg.memWords ≤ cellIndex (scBeforeMemory w c s).aluOut) :
    steps 4 s = .fault (.outOfRange (.address (scBeforeMemory w c s).aluOut)
      { scBeforeMemory w c s with fsm := .memory, cycles := s.cycles + 3 }) := by
  have hmem : mcBeforeMemory w c s = { scBeforeMemory w c s with fsm := .memory, cycles := s.cycles + 3 } := by
    rw [mcBeforeMemory_eq]
    rcases hls with rfl | rfl <;> rfl
  have hfsm : (mcBeforeMemory w c s).fsm = .memory := by rw [hmem]
  have hout : s.cfg.memWords ≤ cellIndex (mcBeforeMemory w c s).aluOut := by rw [hmem]; exact hle
  rw [steps_add 3 1, steps_three hv hp hm hc, andThen_next, steps_one,
    step_mcBeforeMemory hv hc (by rw [hfsm]; decide), mcInstr_memory_outside hfsm hls hout, hmem]

/-- The single-cycle machine with the same parameters. -/
def toSingle (c : Config) : Config := { c with variant := .single }

theorem toSingle_memWords (c : Config) : (toSingle c).memWords = c.memWords := rfl

/-- Settles O33: the single-cycle machine on the same contents runs the same instruction on the same contents, and the phases
follow it. -/
theorem mcInstructionEqualsScStep : Obligations.McInstructionEqualsScStep := by
  intro s t w i hv hp hm hi hstep
  have hc : classify s.cfg.isa w = .ok (classOf i) := classify_eq_ok.mpr ⟨i, hi, rfl⟩
  have hrun : step (mapCfg toSingle s) = .next t := hstep
  have hfetch : memRead (mapCfg toSingle s) (mapCfg toSingle s).pc = some w := hm
  rw [step_eq_scInstr rfl hfetch hc, scInstr_mapCfg toSingle_memWords] at hrun
  obtain ⟨u, hu, rfl⟩ := mapOutcome_eq_next hrun
  refine (run_eq_steps _ s).trans ((steps_of_scInstr_next hv hp hm hc hu).trans ?_)
  rw [variantDifference_eq, ← scInstr_cfg hu]
  generalize classOf i = c
  rcases c with op | op | _ | _ | sense | link | _
  case jump => cases link <;> rfl
  all_goals rfl

/-! ## One phase -/

/-- Settles O32: one law of `mcInstr` for each phase. -/
theorem mcLatePhases : Obligations.McLatePhases := by
  intro s i hv hi
  have hc : classify s.cfg.isa s.ir = .ok (classOf i) := classify_eq_ok.mpr ⟨i, hi, rfl⟩
  refine ⟨fun hp => ?_, fun hp hl w hm => ?_, fun hp hs t hw => ?_, fun hp d v hdv => ?_⟩
  · rw [step_eq_mcInstr_ir hv (by rw [hp]; decide) hc, mcInstr_execute hp]
    exact ⟨_, rfl, rfl, rfl, rfl, rfl, rfl, rfl⟩
  · rw [step_eq_mcInstr_ir hv (by rw [hp]; decide) hc, hl, mcInstr_memory_load hp, hm]
  · rw [step_eq_mcInstr_ir hv (by rw [hp]; decide) hc, hs, mcInstr_memory_store hp, hw]
    obtain ⟨_, rfl⟩ := memWrite_eq_some.mp hw
    rfl
  · have hwb : writebackOf s.ir (classOf i) s = some (d, v) := by
      obtain ⟨⟨op, hcls⟩, rfl, rfl⟩ | ⟨⟨op, hcls⟩, rfl, rfl⟩ | ⟨hcls, rfl, rfl⟩ | ⟨hcls, rfl, rfl⟩ := hdv <;> rw [hcls] <;> rfl
    rw [step_eq_mcInstr_ir hv (by rw [hp]; decide) hc, mcInstr_writeback hp, hwb]

/-! ## The FSM -/

theorem nextState_execute (c : InstrClass) : nextState .execute c = some ((nextState .execute c).getD .fetch) := by
  cases c <;> rfl

/-- Settles O20: one case for each phase that can complete. -/
theorem mcStepFollowsTheFsm : Obligations.McStepFollowsTheFsm := by
  intro s t hv h
  obtain ⟨w, hp, _, rfl⟩ | ⟨hp, rfl⟩ | ⟨c, hc, ⟨hp, rfl⟩ | ⟨hp, rfl, v, _, rfl⟩ | ⟨hp, rfl, _, rfl⟩ | ⟨hp, d, v, hwb, rfl⟩⟩ :=
    step_multi_next encodeDecode hv h
  · simp [hp]
  · simp [hp]
  · exact ⟨rfl, by simp [hp], by simp [hp], fun _ => ⟨c, hc, by rw [hp]; exact nextState_execute c⟩⟩
  · exact ⟨rfl, by simp [hp], by simp [hp], fun _ => ⟨.load, hc, by rw [hp]; rfl⟩⟩
  · exact ⟨rfl, by simp [hp], by simp [hp], fun _ => ⟨.store, hc, by rw [hp]; rfl⟩⟩
  · exact ⟨rfl, by simp [hp], by simp [hp], fun _ => ⟨c, hc, by rw [hp]; exact nextState_writeback hwb⟩⟩

/-- R151, from the word in force: FETCH and DECODE are rows of the table too. -/
theorem step_nextState {s t : State} {w : Word} {c : InstrClass} (hv : s.cfg.variant = .multi) (hw : wordInForce s = some w)
    (hc : classify s.cfg.isa w = .ok c) (h : step s = .next t) :
    nextState s.fsm c = some t.fsm ∧ t.cycles = s.cycles + 1 := by
  obtain ⟨hcyc, hfetch, hdecode, hlate⟩ := mcStepFollowsTheFsm s t hv h
  refine ⟨?_, hcyc⟩
  have hir : s.fsm ≠ .fetch → s.ir = w := fun hf => Option.some.inj ((wordInForce_of_late hv hf).symm.trans hw)
  cases hp : s.fsm with
  | fetch => rw [hfetch hp]; rfl
  | decode => rw [hdecode hp]; rfl
  | execute | memory | writeback =>
    obtain ⟨c', hc', hnext⟩ := hlate (by simp [hp])
    rw [hir (by simp [hp]), hc] at hc'
    cases hc'
    rw [← hp]
    exact hnext

/-- R33: after a step of any phase IR holds the word that was in force, and the parameters are as they were. -/
theorem step_ir {s t : State} {w : Word} (hv : s.cfg.variant = .multi) (hw : wordInForce s = some w) (h : step s = .next t) :
    t.ir = w ∧ t.cfg = s.cfg := by
  have hir : s.fsm ≠ .fetch → s.ir = w := fun hf => Option.some.inj ((wordInForce_of_late hv hf).symm.trans hw)
  obtain ⟨w', hp, hm, rfl⟩ | ⟨hp, rfl⟩ | ⟨c, _, ⟨hp, rfl⟩ | ⟨hp, _, v, _, rfl⟩ | ⟨hp, _, _, rfl⟩ | ⟨hp, d, v, _, rfl⟩⟩ :=
    step_multi_next encodeDecode hv h
  · exact ⟨Option.some.inj (hm.symm.trans ((wordInForce_of_fetch (.inr hp)).symm.trans hw)), rfl⟩
  all_goals exact ⟨hir (by rw [hp]; decide), rfl⟩

/-- R160: the row of a class is a path of R151's table from FETCH to FETCH. -/
theorem nextState_visitedStates (c : InstrClass) {k : Nat} (hk : k < (visitedStates c).length) :
    nextState ((visitedStates c)[k]?.getD .fetch) c = some ((visitedStates c)[k + 1]?.getD .fetch) := by
  cases c <;> simp only [visitedStates, List.length_cons, List.length_nil] at hk <;> interval_cases k <;> rfl

/-- R160: within the row the FSM is past FETCH. -/
theorem visitedStates_ne_fetch (c : InstrClass) {k : Nat} (hk : k + 1 < (visitedStates c).length) :
    (visitedStates c)[k + 1]?.getD .fetch ≠ .fetch := by
  cases c <;> simp only [visitedStates, List.length_cons, List.length_nil, Nat.add_lt_add_iff_right] at hk <;>
    interval_cases k <;> simp [visitedStates]

/-- R160, with what the induction needs: within the row the word is still in force. -/
theorem steps_visit {s : State} {w : Word} {c : InstrClass} (hv : s.cfg.variant = .multi) (hp : s.fsm = .fetch)
    (hm : memRead s s.pc = some w) (hc : classify s.cfg.isa w = .ok c) {k : Nat} {t : State}
    (hk : k ≤ (visitedStates c).length) (h : steps k s = .next t) :
    t.cfg = s.cfg ∧ t.fsm = (visitedStates c)[k]?.getD .fetch ∧ t.cycles = s.cycles + k ∧
      (k < (visitedStates c).length → wordInForce t = some w) := by
  induction k generalizing t with
  | zero =>
    cases h
    exact ⟨rfl, by rw [hp]; cases c <;> rfl, rfl, fun _ => (wordInForce_of_fetch (.inr hp)).trans hm⟩
  | succ k ih =>
    rw [steps_add k 1, andThen_eq_next] at h
    obtain ⟨u, hu, hstep⟩ := h
    rw [steps_one] at hstep
    obtain ⟨hcfg, hfsm, hcyc, hword⟩ := ih (by omega) hu
    have hvu : u.cfg.variant = .multi := by rw [hcfg]; exact hv
    have hwu : wordInForce u = some w := hword hk
    obtain ⟨hnext, hcyc'⟩ := step_nextState hvu hwu (by rw [hcfg]; exact hc) hstep
    obtain ⟨hir, hcfg'⟩ := step_ir hvu hwu hstep
    have htf : t.fsm = (visitedStates c)[k + 1]?.getD .fetch :=
      (Option.some.inj ((nextState_visitedStates c hk).symm.trans (by rw [← hfsm]; exact hnext))).symm
    refine ⟨hcfg'.trans hcfg, htf, by rw [hcyc', hcyc]; omega, fun hlt => ?_⟩
    rw [wordInForce_of_late (by rw [hcfg']; exact hvu) (by rw [htf]; exact visitedStates_ne_fetch c hlt), hir]

/-- Settles O21, from the induction along the row. -/
theorem visitedStatesMatchTheClass : Obligations.VisitedStatesMatchTheClass := by
  intro s w c hv hp hm hc k t hk h
  obtain ⟨_, hfsm, hcyc, _⟩ := steps_visit hv hp hm hc hk ((run_eq_steps k s).symm.trans h)
  exact ⟨hfsm, hcyc⟩

end Sys2Proof.Proofs
end

section
/-! One whole instruction in both variants (44 to 47): O22 to O30, and what follows for a store and a later load or fetch (O49,
O50). Each effect is the single-cycle law of the class, carried to the multi-cycle machine once, in `executes_of_scInstr`. -/

namespace Sys2Proof.Proofs

open Sys2Proof.Machine Sys2Proof.Laws

/-! ## From the single-cycle law to both variants -/

theorem classify_encode (t : IsaTable) (i : Instr) : classify t (encode t i) = .ok (classOf i) :=
  classify_eq_ok.mpr ⟨i, decodeEncode t i, rfl⟩

theorem exec_single {i : Instr} {s : State} (hv : s.cfg.variant = .single) :
    exec i s = scInstr (encode s.cfg.isa i) (classOf i) s := by
  rw [exec_eq_runInstr, runInstr_single hv]

/-- The phases of an instruction, from its single-cycle law. -/
theorem run_phases {i : Instr} {s t : State} (hv : s.cfg.variant = .multi) (hp : s.fsm = .fetch)
    (hm : memRead s s.pc = some (encode s.cfg.isa i)) (h : scInstr (encode s.cfg.isa i) (classOf i) s = .next t)
    (hfsm : (classDifference (classOf i) s t).fsm = s.fsm) :
    Host.Core.run core (phaseCount (classOf i)) s =
      .next { classDifference (classOf i) s t with cycles := s.cycles + phaseCount (classOf i) } := by
  refine (run_eq_steps _ s).trans ((steps_of_scInstr_next hv hp hm (classify_encode _ i) h).trans ?_)
  rw [← hfsm.trans hp]
  rfl

/-- R182: for a class on which the variants do not differ, the single-cycle law is the whole of `Executes`. -/
theorem executes_of_scInstr {i : Instr} {s t : State} (h : scInstr (encode s.cfg.isa i) (classOf i) s = .next t)
    (hfsm : t.fsm = s.fsm) (hdiff : classDifference (classOf i) s t = t) : Executes i s t := by
  refine ⟨fun hv => (exec_single hv).trans h, fun hv hp hm => ?_⟩
  have hrun := run_phases hv hp hm h (by rw [hdiff, hfsm])
  rwa [hdiff] at hrun

/-! ## The state before the data access, written out

The seven equations below are the definition's own, one for each class; later proofs use them and do not unfold the phases. -/

/-- What the phases before the data access leave, from the ALU operation, its operands and the final PC. -/
def computed (w : Word) (op : AluOp) (x y pc' : Word) (s : State) : State :=
  { s with
    ir := w, pc := pc', a := s.reg (rsOf w), b := s.reg (rtOf w), aluOut := aluResult op x y, flags := aluFlags op x y }

section
variable (w : Word) (op : AluOp) (s : State)

theorem scBeforeMemory_rType :
    scBeforeMemory w (.rType op) s = computed w op (s.reg (rsOf w)) (s.reg (rtOf w)) (s.pc + 4) s := rfl

theorem scBeforeMemory_iType :
    scBeforeMemory w (.iType op) s = computed w op (s.reg (rsOf w)) (sext16 (imm16Of w)) (s.pc + 4) s := rfl

theorem scBeforeMemory_load :
    scBeforeMemory w .load s = computed w .add (s.reg (rsOf w)) (sext16 (imm16Of w)) (s.pc + 4) s := rfl

theorem scBeforeMemory_store :
    scBeforeMemory w .store s = computed w .add (s.reg (rsOf w)) (sext16 (imm16Of w)) (s.pc + 4) s := rfl

/-- R139: the condition is the equality of the two registers. -/
theorem scBeforeMemory_branch (sense : Sense) :
    scBeforeMemory w (.branch sense) s =
      computed w .sub (s.reg (rsOf w)) (s.reg (rtOf w))
        (if taken sense (s.reg (rsOf w) == s.reg (rtOf w)) then branchTarget (s.pc + 4) (fields w) else s.pc + 4) s := by
  rw [← aluFlags_sub_z]; rfl

theorem scBeforeMemory_jump :
    scBeforeMemory w (.jump false) s =
      computed w .add (s.reg (rsOf w)) (s.reg (rtOf w)) (jumpTarget (s.pc + 4) (fields w)) s := rfl

theorem scBeforeMemory_jumpLink :
    scBeforeMemory w (.jump true) s = computed w .add (s.pc + 4) 4 (jumpTarget (s.pc + 4) (fields w)) s := rfl

theorem scBeforeMemory_halt :
    scBeforeMemory w .halt s = computed w .add (s.reg (rsOf w)) (s.reg (rtOf w)) s.pc s := rfl

end

/-! ## R_TYPE and I_TYPE -/

/-- R200: what the nine instructions share. -/
theorem executes_rType {i : Instr} {op : AluOp} {opcode funct : BitVec 6} {rd rs rt shamt : RegIdx} {s : State}
    (hw : encode s.cfg.isa i = encodeR opcode funct rs rt rd shamt) (hc : classOf i = .rType op) :
    Executes i s (afterRType i op rd rs rt s) := by
  refine executes_of_scInstr ?_ rfl (by rw [hc]; rfl)
  rw [hc, scInstr_rType, scBeforeMemory_rType, hw]
  simp [afterRType, computed, hw]

/-- Settles O22: each of the nine is the shared effect under its own operation. -/
theorem rTypeEffect : Obligations.RTypeEffect := by
  intro s rd rs rt shamt
  exact ⟨executes_rType rfl rfl, executes_rType rfl rfl, executes_rType rfl rfl, executes_rType rfl rfl, executes_rType rfl rfl,
    executes_rType rfl rfl, executes_rType rfl rfl, executes_rType rfl rfl, executes_rType rfl rfl⟩

/-- R220: what the five instructions share. -/
theorem executes_iType {i : Instr} {op : AluOp} {opcode : BitVec 6} {rs rt : RegIdx} {imm : BitVec 16} {s : State}
    (hw : encode s.cfg.isa i = encodeI opcode rs rt imm) (hc : classOf i = .iType op) :
    Executes i s (afterIType i op rt rs imm s) := by
  refine executes_of_scInstr ?_ rfl (by rw [hc]; rfl)
  rw [hc, scInstr_iType, scBeforeMemory_iType, hw]
  simp [afterIType, computed, sext16, hw]

/-- Settles O23: each of the five is the shared effect under its own operation. -/
theorem iTypeEffect : Obligations.ITypeEffect := by
  intro s rt rs imm
  exact ⟨executes_iType rfl rfl, executes_iType rfl rfl, executes_iType rfl rfl, executes_iType rfl rfl,
    executes_iType rfl rfl⟩

/-! ## The destination's value -/

/-- R22, R23: what the destination shows after its write; register 0 discards it. -/
theorem read_write_self (x : RegFile) (d : RegIdx) (v : Word) :
    RegFile.read (RegFile.write x true d v) d = if d = 0 then 0 else v := by
  by_cases hd : d = 0
  · rw [if_pos hd, hd]; rfl
  · rw [if_neg hd, read_write_same x v hd]

theorem reg_of_executes_rType {i : Instr} {op : AluOp} {d rs rt : RegIdx} {s t : State}
    (hex : Executes i s (afterRType i op d rs rt s)) (hv : s.cfg.variant = .single) (h : exec i s = .next t) :
    t.reg d = if d = 0 then 0 else aluResult op (s.reg rs) (s.reg rt) := by
  have heq := (hex.1 hv).symm.trans h
  cases heq
  exact read_write_self _ _ _

theorem reg_of_executes_iType {i : Instr} {op : AluOp} {d rs : RegIdx} {imm : BitVec 16} {s t : State}
    (hex : Executes i s (afterIType i op d rs imm s)) (hv : s.cfg.variant = .single) (h : exec i s = .next t) :
    t.reg d = if d = 0 then 0 else aluResult op (s.reg rs) (imm.signExtend 32) := by
  have heq := (hex.1 hv).symm.trans h
  cases heq
  exact read_write_self _ _ _

/-- R8: addition modulo 2^32 is that of the signed values. -/
theorem aluResult_add_eq_trunc32 (a b : Word) : aluResult .add a b = trunc32 (a.toInt + b.toInt) := by
  rw [trunc32, BitVec.ofInt_add, BitVec.ofInt_toInt, BitVec.ofInt_toInt]; rfl

/-- R8: and so is subtraction. -/
theorem aluResult_sub_eq_trunc32 (a b : Word) : aluResult .sub a b = trunc32 (a.toInt - b.toInt) := by
  apply BitVec.eq_of_toInt_eq
  rw [trunc32, BitVec.toInt_ofInt]
  exact BitVec.toInt_sub

/-- R9: sign extension keeps the signed value. -/
theorem toInt_signExtend_imm (imm : BitVec 16) : (imm.signExtend 32).toInt = imm.toInt :=
  BitVec.toInt_signExtend_of_le (by decide)

theorem aluResult_slt (a b : Word) : aluResult .slt a b = if a.toInt < b.toInt then 1 else 0 := rfl

/-- A 0 or 1 that is discarded, as one condition. -/
theorem ite_discard {p q : Prop} [Decidable p] [Decidable q] :
    (if q then (0 : Word) else if p then 1 else 0) = if ¬q ∧ p then 1 else 0 := by
  by_cases hq : q <;> simp [hq]

/-- Settles O24: the destination holds the operation's result, and each result has its law as a number. -/
theorem arithmeticResults : Obligations.ArithmeticResults := by
  intro s t d rs rt shamt imm hv
  obtain ⟨hadd, hsub, _, _, _, hsll, hsrl, hsra, hslt⟩ := rTypeEffect s d rs rt shamt
  obtain ⟨haddi, hslti, _⟩ := iTypeEffect s d rs imm
  refine ⟨fun h => ?_, fun h => ?_, fun h => ?_, fun h => ?_, fun h => ?_, fun h => ?_, fun h => ?_, fun h => ?_⟩
  · rw [reg_of_executes_rType hadd hv h, apply_ite BitVec.toNat, toNat_aluResult_add]; rfl
  · rw [reg_of_executes_iType haddi hv h, aluResult_add_eq_trunc32, toInt_signExtend_imm]
  · rw [reg_of_executes_rType hsub hv h, aluResult_sub_eq_trunc32]
  · rw [reg_of_executes_rType hslt hv h, aluResult_slt]
    exact ite_discard
  · rw [reg_of_executes_iType hslti hv h, aluResult_slt, toInt_signExtend_imm]
    exact ite_discard
  · rw [reg_of_executes_rType hsll hv h, apply_ite BitVec.toNat, toNat_aluResult_sll]; rfl
  · rw [reg_of_executes_rType hsrl hv h, apply_ite BitVec.toNat, toNat_aluResult_srl]; rfl
  · rw [reg_of_executes_rType hsra hv h, apply_ite BitVec.toInt, toInt_aluResult_sra]; rfl

/-! ## LW and SW -/

/-- R230: what LW and SW share: the state in which their data access begins. -/
theorem scBeforeMemory_access {i : Instr} {c : InstrClass} {opcode : BitVec 6} {rs rt : RegIdx} {imm : BitVec 16} {s : State}
    (hw : encode s.cfg.isa i = encodeI opcode rs rt imm) (hc : c = .load ∨ c = .store) :
    scBeforeMemory (encode s.cfg.isa i) c s = afterAddress i rt rs imm s := by
  have hcomputed : computed (encode s.cfg.isa i) .add (s.reg rs) (imm.signExtend 32) (s.pc + 4) s =
      afterAddress i rt rs imm s := by
    rw [hw]; simp [afterAddress, computed, effectiveAddress, aluResult, hw]
  have hfields : sext16 (imm16Of (encode s.cfg.isa i)) = imm.signExtend 32 ∧ rsOf (encode s.cfg.isa i) = rs := by
    rw [hw]; simp [sext16]
  rcases hc with rfl | rfl
  · rw [scBeforeMemory_load, hfields.1, hfields.2, hcomputed]
  · rw [scBeforeMemory_store, hfields.1, hfields.2, hcomputed]

/-- R266: what the two failures share. -/
theorem access_outside {i : Instr} {opcode : BitVec 6} {rs rt : RegIdx} {imm : BitVec 16} {s : State}
    (hw : encode s.cfg.isa i = encodeI opcode rs rt imm) (hc : classOf i = .load ∨ classOf i = .store)
    (hle : s.cfg.memWords ≤ (effectiveAddress rs imm s).toNat / 4) :
    (s.cfg.variant = .single →
      exec i s = .fault (.outOfRange (.address (effectiveAddress rs imm s)) (afterAddress i rt rs imm s))) ∧
    (s.cfg.variant = .multi → s.fsm = .fetch → memRead s s.pc = some (encode s.cfg.isa i) →
      Host.Core.run core 4 s = .fault (.outOfRange (.address (effectiveAddress rs imm s))
        { afterAddress i rt rs imm s with fsm := .memory, cycles := s.cycles + 3 })) := by
  have hbefore := scBeforeMemory_access hw hc
  have hout : s.cfg.memWords ≤ cellIndex (effectiveAddress rs imm s) := by rwa [cellIndex_eq]
  have hea : (afterAddress i rt rs imm s).aluOut = effectiveAddress rs imm s := rfl
  refine ⟨fun hv => ?_, fun hv hp hm => ?_⟩
  · rw [exec_single hv]
    rcases hc with hc | hc <;> rw [hc] at hbefore ⊢
    · rw [scInstr_load, hbefore, hea, memRead_eq_none.mpr hout]
    · rw [scInstr_store, hbefore, hea, if_neg (Nat.not_lt.mpr hout)]
  · refine (run_eq_steps 4 s).trans ?_
    rw [steps_four_outside hv hp hm (classify_encode _ i) hc (by rw [hbefore, hea]; exact hout), hbefore, hea]
    rfl

/-- Settles O25: the law of LOAD on the address state, and the failure it shares with SW. -/
theorem loadEffect : Obligations.LoadEffect := by
  intro s rt rs imm
  refine ⟨fun w hw => executes_of_scInstr ?_ rfl rfl, access_outside rfl (.inl rfl)⟩
  have hrt : rtOf (encode s.cfg.isa (.lw rt rs imm)) = rt := rtOf_encodeI _ _ _ _
  have hread : memRead s (afterAddress (.lw rt rs imm) rt rs imm s).aluOut = some w := hw
  rw [classOf, scInstr_load, scBeforeMemory_access rfl (.inl rfl), hread, hrt]

/-- R232: a SW inside memory. -/
theorem executes_sw {s : State} {rt rs : RegIdx} {imm : BitVec 16}
    (hlt : (effectiveAddress rs imm s).toNat / 4 < s.cfg.memWords) :
    Executes (.sw rt rs imm) s
      { afterAddress (.sw rt rs imm) rt rs imm s with
        mem := Memory.write s.mem ((effectiveAddress rs imm s).toNat / 4) (s.reg rt) } := by
  refine executes_of_scInstr ?_ rfl rfl
  have hrt : rtOf (encode s.cfg.isa (.sw rt rs imm)) = rt := rtOf_encodeI _ _ _ _
  have hea : (afterAddress (.sw rt rs imm) rt rs imm s).aluOut = effectiveAddress rs imm s := rfl
  rw [classOf, scInstr_store, scBeforeMemory_access rfl (.inr rfl), hea, cellIndex_eq, if_pos hlt, hrt]

/-- Settles O26: the memory written is the old one with the cell of the address replaced. -/
theorem storeEffect : Obligations.StoreEffect := by
  intro s rt rs imm hwf
  refine ⟨fun hlt => ⟨_, executes_sw hlt, ?_, fun k hk => ?_⟩, access_outside rfl (.inr rfl)⟩
  · rw [Memory.read_write hwf, if_pos rfl]
  · rw [Memory.read_write hwf, if_neg hk]

/-! ## A store and what comes after it -/

/-- R232, the other way: a single-cycle SW that completed was inside memory. -/
theorem exec_sw_next {s t : State} {rt rs : RegIdx} {imm : BitVec 16} (hv : s.cfg.variant = .single)
    (h : exec (.sw rt rs imm) s = .next t) :
    (effectiveAddress rs imm s).toNat / 4 < s.cfg.memWords ∧
      t = { afterAddress (.sw rt rs imm) rt rs imm s with
        mem := Memory.write s.mem ((effectiveAddress rs imm s).toNat / 4) (s.reg rt) } := by
  by_cases hlt : (effectiveAddress rs imm s).toNat / 4 < s.cfg.memWords
  · have heq := ((executes_sw hlt).1 hv).symm.trans h
    cases heq
    exact ⟨hlt, rfl⟩
  · have heq := ((access_outside (i := .sw rt rs imm) rfl (.inr rfl) (Nat.not_lt.mp hlt)).1 hv).symm.trans h
    cases heq

theorem exec_sw_cfg {s t : State} {rt rs : RegIdx} {imm : BitVec 16} (hv : s.cfg.variant = .single)
    (h : exec (.sw rt rs imm) s = .next t) : t.cfg = s.cfg := by
  obtain ⟨_, rfl⟩ := exec_sw_next hv h
  rfl

/-- R60, R233: any later read of the cell shows the Word stored. -/
theorem memRead_after_sw {s t : State} {rt rs : RegIdx} {imm : BitVec 16} (hv : s.cfg.variant = .single)
    (hwf : Memory.wf s.mem = true) (h : exec (.sw rt rs imm) s = .next t) {a : Word}
    (hcell : a.toNat / 4 = (effectiveAddress rs imm s).toNat / 4) : memRead t a = some (s.reg rt) := by
  obtain ⟨hlt, ht⟩ := exec_sw_next hv h
  have hmem : t.mem = Memory.write s.mem ((effectiveAddress rs imm s).toNat / 4) (s.reg rt) := by rw [ht]
  rw [memRead_of_div_lt (by rw [exec_sw_cfg hv h, hcell]; exact hlt), hmem, Memory.read_write hwf, if_pos hcell]

/-- Settles O49: the LW reads the cell that the SW wrote. -/
theorem storeThenLoadRoundTrip : Obligations.StoreThenLoadRoundTrip := by
  intro s t rt ru rs rs' imm imm' hv hwf h hru hcell
  have hvt : t.cfg.variant = .single := by rw [exec_sw_cfg hv h]; exact hv
  have hload := (loadEffect t ru rs' imm').1 _ (memRead_after_sw hv hwf h hcell)
  exact ⟨_, hload.1 hvt, read_write_same _ _ hru, rfl⟩

/-- Settles O50: the next fetch reads the cell that the SW wrote. -/
theorem storeSeenByNextFetch : Obligations.StoreSeenByNextFetch := by
  intro s t rt rs imm hv hwf h hcell
  have hvt : t.cfg.variant = .single := by rw [exec_sw_cfg hv h]; exact hv
  rw [wordInForce_of_fetch (.inl hvt), memRead_after_sw hv hwf h hcell.symm]

/-! ## BRANCH -/

/-- R74, R243: the target of a branch from the word after it, as a number. -/
theorem branchTarget_eq (pc : Word) (f : Fields) (imm : BitVec 16) (hf : f.imm = imm.signExtend 32) :
    branchTarget pc f = pc + trunc32 (4 * imm.toInt) := by
  have hshift : (imm.signExtend 32) <<< 2 = trunc32 (4 * imm.toInt) := by
    rw [trunc32, BitVec.ofInt_mul, ← toInt_signExtend_imm, BitVec.ofInt_toInt, BitVec.shiftLeft_eq_mul_twoPow, BitVec.mul_comm]
    rfl
  rw [branchTarget, hf, hshift]

/-- R240: what BEQ and BNE share. -/
theorem executes_branch {i : Instr} {sense : Sense} {opcode : BitVec 6} {rs rt : RegIdx} {imm : BitVec 16} {s : State}
    (hw : encode s.cfg.isa i = encodeI opcode rs rt imm) (hc : classOf i = .branch sense) :
    Executes i s (afterBranch i rs rt
      (if taken sense (s.reg rs == s.reg rt) then s.pc + 4 + trunc32 (4 * imm.toInt) else s.pc + 4) s) := by
  refine executes_of_scInstr ?_ rfl (by rw [hc]; rfl)
  have himm : (fields (encodeI opcode rs rt imm)).imm = imm.signExtend 32 := by simp [fields, sext16]
  rw [hc, scInstr_branch, scBeforeMemory_branch, hw, branchTarget_eq _ _ _ himm]
  simp [afterBranch, computed, aluResult, hw]

/-- Settles O27: the two senses of the shared effect, on either side of the condition. -/
theorem branchEffect : Obligations.BranchEffect := by
  intro s rs rt imm
  have hbeq := executes_branch (i := .beq rs rt imm) (s := s) rfl rfl
  have hbne := executes_branch (i := .bne rs rt imm) (s := s) rfl rfl
  by_cases h : s.reg rs = s.reg rt
  · simp only [taken, h, beq_self_eq_true, Bool.not_true, if_true, Bool.false_eq_true, if_false] at hbeq hbne ⊢
    exact ⟨hbeq, hbne⟩
  · simp only [taken, beq_eq_false_iff_ne.mpr h, Bool.not_false, if_true, Bool.false_eq_true, if_false, if_neg h] at hbeq hbne ⊢
    exact ⟨hbeq, hbne⟩

/-! ## JUMP and HALT -/

/-- R74, R244: the target of a jump, as a number. -/
theorem jumpTarget_eq (s : State) (opcode : BitVec 6) (address : BitVec 26) :
    jumpTarget (s.pc + 4) (fields (encodeJ opcode address)) = jumpTo address s := by
  have haddr : (fields (encodeJ opcode address)).address = address := addressOf_encodeJ opcode address
  apply BitVec.eq_of_toNat_eq
  rw [jumpTarget, haddr, jumpTo, BitVec.toNat_ofNat]
  change BitVec.toNat (w := 4 + 26 + 2) ((s.pc + 4).extractLsb' 28 4 ++ address ++ 0#2) = _
  rw [toNat_concat, toNat_concat, toNat_field]
  have hpc := (s.pc + 4).isLt
  have ha := address.isLt
  simp only [BitVec.toNat_ofNat]
  omega

/-- R245, R248: what J and HALT share: the ALU adds A and B. -/
theorem computed_defaultAlu {i : Instr} {opcode : BitVec 6} {low : BitVec 26} {s : State}
    (hw : encode s.cfg.isa i = encodeJ opcode low) (pc' : Word) :
    computed (encode s.cfg.isa i) .add (s.reg (rsOf (encode s.cfg.isa i))) (s.reg (rtOf (encode s.cfg.isa i))) pc' s =
      afterDefaultAlu i low pc' s := by
  rw [hw]
  simp [afterDefaultAlu, computed, aluResult, hw]

/-! The two lemmas on `fsm` are stated for any final PC: the kernel is not to compare a jump target with `s.pc`. -/

theorem afterDefaultAlu_fsm (i : Instr) (low : BitVec 26) (pc' : Word) (s : State) :
    (afterDefaultAlu i low pc' s).fsm = s.fsm := rfl

theorem afterJal_fsm (address : BitVec 26) (s : State) : (afterJal address s).fsm = s.fsm := by
  unfold afterJal
  generalize jumpTo address s = target
  rfl

theorem classDifference_jump (s t : State) : classDifference (.jump false) s t = t := rfl

/-- Settles O28: the default ALU run, and the assembled target. -/
theorem jumpEffect : Obligations.JumpEffect := by
  intro s address
  refine executes_of_scInstr ?_ (afterDefaultAlu_fsm _ _ _ _) (by rw [classOf, classDifference_jump])
  have htarget : jumpTarget (s.pc + 4) (fields (encode s.cfg.isa (.j address))) = jumpTo address s := jumpTarget_eq s _ address
  rw [classOf, scInstr_jump, scBeforeMemory_jump, computed_defaultAlu (i := .j address) rfl, htarget]

/-- R246, single-cycle. -/
theorem scInstr_jal (address : BitVec 26) (s : State) :
    scInstr (encode s.cfg.isa (.jal address)) (.jump true) s =
      .next { afterJal address s with x := RegFile.write s.x true 31 (s.pc + 8) } := by
  have hw : encode s.cfg.isa (.jal address) = encodeJ s.cfg.isa.jal address := rfl
  have hlink : s.pc + 4 + 4 = s.pc + 8 := by rw [BitVec.add_assoc]; rfl
  rw [scInstr_jumpLink, scBeforeMemory_jumpLink, hw, jumpTarget_eq]
  simp only [afterJal, computed, aluResult, rsOf_encodeJ, rtOf_encodeJ, hlink, hw]

/-- R246, D15: without the link the JAL of either variant leaves the same. -/
theorem classDifference_jal (address : BitVec 26) (x : RegFile) (s : State) :
    classDifference (.jump true) s { afterJal address s with x := x } = afterJal address s := by
  unfold afterJal
  generalize jumpTo address s = target
  rfl

/-- Settles O29: one law for both variants; the difference restores the registers. -/
theorem jalEffect : Obligations.JalEffect := by
  intro s address
  refine ⟨fun hv => (exec_single hv).trans (scInstr_jal address s), fun hv hp hm => ?_⟩
  have hrun := run_phases (i := .jal address) hv hp hm (scInstr_jal address s)
  rw [classOf, classDifference_jal] at hrun
  exact hrun (afterJal_fsm address s)

/-- R248, single-cycle. -/
theorem scInstr_haltWord (ignored : BitVec 26) (s : State) :
    scInstr (encode s.cfg.isa (.halt ignored)) .halt s = .next (afterDefaultAlu (.halt ignored) ignored s.pc s) := by
  rw [scInstr_halt, scBeforeMemory_halt, computed_defaultAlu (i := .halt ignored) rfl]

/-- Settles O30: one law for both variants; the difference moves PC past the HALT. -/
theorem haltEffect : Obligations.HaltEffect := by
  intro s ignored
  exact ⟨fun hv => (exec_single hv).trans (scInstr_haltWord ignored s),
    fun hv hp hm => run_phases (i := .halt ignored) hv hp hm (scInstr_haltWord ignored s) rfl⟩

end Sys2Proof.Proofs
end

section
/-! What a completed step can change (10_state.md R25 to R35, 20_memory.md R66) and the invariant that follows: O45 to O48 and
O41 to O43. Each lemma `step_<field>` reads the two inversions of `Laws/Step.lean` once. -/

namespace Sys2Proof.Proofs

open Sys2Proof.Machine Sys2Proof.Laws

/-! ## The instruction behind a class -/

theorem eq_lw_of_classOf {i : Instr} (h : classOf i = .load) : ∃ rt rs imm, i = .lw rt rs imm := by
  cases i with
  | lw rt rs imm => exact ⟨rt, rs, imm, rfl⟩
  | _ => cases h

theorem eq_sw_of_classOf {i : Instr} (h : classOf i = .store) : ∃ rt rs imm, i = .sw rt rs imm := by
  cases i with
  | sw rt rs imm => exact ⟨rt, rs, imm, rfl⟩
  | _ => cases h

/-- R25, from the class and the word. -/
def classDestination (c : InstrClass) (w : Word) : Option RegIdx :=
  match c with
  | .rType _ => some (rdOf w)
  | .iType _ | .load => some (rtOf w)
  | .jump true => some 31
  | .store | .branch _ | .jump false | .halt => none

theorem destinationOf_eq {t : IsaTable} {w : Word} {i : Instr} (h : decode t w = .ok i) :
    destinationOf i = classDestination (classOf i) w := by
  obtain rfl := encodeDecode t w i h
  cases i <;> simp [destinationOf, classDestination, classOf, encode]

theorem classDestination_of_writebackOf {w : Word} {c : InstrClass} {s : State} {d : RegIdx} {v : Word}
    (h : writebackOf w c s = some (d, v)) : classDestination c w = some d := by
  rcases c with op | op | _ | _ | sense | link | _
  case jump => cases link <;> cases h; rfl
  all_goals cases h <;> rfl

/-! ## Registers (R25) and parameters (R6) -/

theorem step_cfg {s t : State} (h : step s = .next t) : t.cfg = s.cfg := by
  cases hv : s.cfg.variant with
  | single =>
    obtain ⟨w, c, _, _, hrun⟩ := step_single_next encodeDecode hv h
    exact scInstr_cfg hrun
  | multi =>
    obtain ⟨_, _, _, rfl⟩ | ⟨_, rfl⟩ | ⟨_, _, ⟨_, rfl⟩ | ⟨_, _, _, _, rfl⟩ | ⟨_, _, _, rfl⟩ | ⟨_, _, _, _, rfl⟩⟩ :=
      step_multi_next encodeDecode hv h <;> rfl

/-- R25: the register file changes by one write at most, to the destination of the instruction in force. -/
theorem step_x {s t : State} (h : step s = .next t) :
    t.x = s.x ∨ ∃ w i d v, wordInForce s = some w ∧ decode s.cfg.isa w = .ok i ∧ destinationOf i = some d ∧
      (s.cfg.variant = .multi → s.fsm = .writeback) ∧ t.x = RegFile.write s.x true d v := by
  cases hv : s.cfg.variant with
  | single =>
    obtain ⟨w, c, hm, hc, hrun⟩ := step_single_next encodeDecode hv h
    obtain ⟨i, hi, rfl⟩ := classify_eq_ok.mp hc
    have hw : wordInForce s = some w := (wordInForce_of_fetch (.inl hv)).trans hm
    have hd := destinationOf_eq hi
    obtain ⟨⟨op, hcls⟩, rfl⟩ | ⟨⟨op, hcls⟩, rfl⟩ | ⟨hcls, v, _, rfl⟩ | ⟨_, _, rfl⟩ | ⟨hcls, rfl⟩ | ⟨_, rfl⟩ := scInstr_next hrun
    · exact .inr ⟨w, i, _, _, hw, hi, hd.trans (by rw [hcls]; rfl), nofun, rfl⟩
    · exact .inr ⟨w, i, _, _, hw, hi, hd.trans (by rw [hcls]; rfl), nofun, rfl⟩
    · exact .inr ⟨w, i, _, _, hw, hi, hd.trans (by rw [hcls]; rfl), nofun, rfl⟩
    · exact .inl rfl
    · exact .inr ⟨w, i, _, _, hw, hi, hd.trans (by rw [hcls]; rfl), nofun, rfl⟩
    · exact .inl rfl
  | multi =>
    obtain ⟨_, _, _, rfl⟩ | ⟨_, rfl⟩ | ⟨c, hc, ⟨_, rfl⟩ | ⟨_, _, _, _, rfl⟩ | ⟨_, _, _, rfl⟩ | ⟨hp, d, v, hwb, rfl⟩⟩ :=
      step_multi_next encodeDecode hv h
    · exact .inl rfl
    · exact .inl rfl
    · exact .inl rfl
    · exact .inl rfl
    · exact .inl rfl
    · obtain ⟨i, hi, rfl⟩ := classify_eq_ok.mp hc
      exact .inr ⟨s.ir, i, d, v, wordInForce_of_late hv (by rw [hp]; decide), hi,
        (destinationOf_eq hi).trans (classDestination_of_writebackOf hwb), fun _ => hp, rfl⟩

/-- Settles O46: a register that changes is the one written. -/
theorem registersChangeOnlyByDestination : Obligations.RegistersChangeOnlyByDestination := by
  intro s t h
  refine ⟨step_cfg h, fun r hr => ?_⟩
  obtain hx | ⟨w, i, d, v, hw, hi, hd, hp, hx⟩ := step_x h
  · exact absurd (congrArg (RegFile.read · r) hx) hr
  · have hread : t.reg r = RegFile.read (RegFile.write s.x true d v) r := congrArg (RegFile.read · r) hx
    rw [hread, RegFile.read_write] at hr
    by_cases hcond : true = true ∧ r = d ∧ d ≠ 0#5
    · obtain ⟨_, rfl, hne⟩ := hcond
      exact ⟨hne, hp, w, i, hw, hi, hd⟩
    · rw [if_neg hcond] at hr
      exact absurd rfl hr

/-! ## Memory (R66) -/

/-- R66: memory changes by one write at most, that of a SW. -/
theorem step_mem {s t : State} (h : step s = .next t) :
    t.mem = s.mem ∨ ∃ w rt rs imm, wordInForce s = some w ∧ decode s.cfg.isa w = .ok (.sw rt rs imm) ∧
      ((s.cfg.variant = .single ∧ (effectiveAddress rs imm s).toNat / 4 < s.cfg.memWords ∧
          t.mem = Memory.write s.mem ((effectiveAddress rs imm s).toNat / 4) (s.reg rt)) ∨
        (s.cfg.variant = .multi ∧ s.fsm = .memory ∧ s.aluOut.toNat / 4 < s.cfg.memWords ∧
          t.mem = Memory.write s.mem (s.aluOut.toNat / 4) s.b)) := by
  cases hv : s.cfg.variant with
  | single =>
    obtain ⟨w, c, hm, hc, hrun⟩ := step_single_next encodeDecode hv h
    obtain ⟨i, hi, rfl⟩ := classify_eq_ok.mp hc
    obtain ⟨_, rfl⟩ | ⟨_, rfl⟩ | ⟨_, _, _, rfl⟩ | ⟨hcls, _, _⟩ | ⟨_, rfl⟩ | ⟨_, rfl⟩ := scInstr_next hrun
    · exact .inl rfl
    · exact .inl rfl
    · exact .inl rfl
    · obtain ⟨rt, rs, imm, rfl⟩ := eq_sw_of_classOf hcls
      obtain rfl := encodeDecode _ w _ hi
      rw [← exec_single hv] at hrun
      obtain ⟨hlt, rfl⟩ := exec_sw_next hv hrun
      exact .inr ⟨_, rt, rs, imm, (wordInForce_of_fetch (.inl hv)).trans hm, hi, .inl ⟨rfl, hlt, rfl⟩⟩
    · exact .inl rfl
    · exact .inl rfl
  | multi =>
    obtain ⟨_, _, _, rfl⟩ | ⟨_, rfl⟩ | ⟨c, hc, ⟨_, rfl⟩ | ⟨_, _, _, _, rfl⟩ | ⟨hp, hcls, hlt, rfl⟩ | ⟨_, _, _, _, rfl⟩⟩ :=
      step_multi_next encodeDecode hv h
    · exact .inl rfl
    · exact .inl rfl
    · exact .inl rfl
    · exact .inl rfl
    · obtain ⟨i, hi, hcls'⟩ := classify_eq_ok.mp hc
      obtain ⟨rt, rs, imm, rfl⟩ := eq_sw_of_classOf (hcls'.trans hcls)
      rw [cellIndex_eq] at hlt ⊢
      exact .inr ⟨s.ir, rt, rs, imm, wordInForce_of_late hv (by rw [hp]; decide), hi, .inr ⟨rfl, hp, hlt, rfl⟩⟩
    · exact .inl rfl

/-- A cell that reads otherwise after one write is the cell written, and reads the value written. -/
theorem Memory.eq_of_read_write_ne {m : Memory} (hwf : Memory.wf m = true) {i k : Nat} {v : Word}
    (h : Memory.read (Memory.write m i v) k ≠ Memory.read m k) : k = i ∧ Memory.read (Memory.write m i v) k = v := by
  rw [Memory.read_write hwf] at h ⊢
  by_cases hk : k = i
  · exact ⟨hk, if_pos hk⟩
  · rw [if_neg hk] at h
    exact absurd rfl h

/-- Settles O47: a cell that changes is the one written. -/
theorem memoryChangesOnlyBySw : Obligations.MemoryChangesOnlyBySw := by
  intro s t k hwf h hne
  obtain hmem | ⟨w, rt, rs, imm, hw, hi, hcase⟩ := step_mem h
  · exact absurd (congrArg (Memory.read · k) hmem) hne
  · refine ⟨w, rt, rs, imm, hw, hi, ?_⟩
    obtain ⟨hv, _, hmem⟩ | ⟨hv, hp, _, hmem⟩ := hcase
    · rw [hmem] at hne ⊢
      obtain ⟨hk, hread⟩ := Memory.eq_of_read_write_ne hwf hne
      exact .inl ⟨hv, hk, hread⟩
    · rw [hmem] at hne ⊢
      obtain ⟨hk, hread⟩ := Memory.eq_of_read_write_ne hwf hne
      exact .inr ⟨hv, hp, hk, hread⟩

/-! ## Holding registers, flags and PC (R28, R32 to R35) -/

/-- R35: MDR changes by LW only. -/
theorem step_mdr {s t : State} (h : step s = .next t) :
    t.mdr = s.mdr ∨ (s.cfg.variant = .multi → s.fsm = .memory) ∧
      ∃ w rt rs imm, wordInForce s = some w ∧ decode s.cfg.isa w = .ok (.lw rt rs imm) := by
  cases hv : s.cfg.variant with
  | single =>
    obtain ⟨w, c, hm, hc, hrun⟩ := step_single_next encodeDecode hv h
    obtain ⟨i, hi, rfl⟩ := classify_eq_ok.mp hc
    obtain ⟨_, rfl⟩ | ⟨_, rfl⟩ | ⟨hcls, _, _, rfl⟩ | ⟨_, _, rfl⟩ | ⟨_, rfl⟩ | ⟨_, rfl⟩ := scInstr_next hrun
    · exact .inl rfl
    · exact .inl rfl
    · obtain ⟨rt, rs, imm, rfl⟩ := eq_lw_of_classOf hcls
      exact .inr ⟨nofun, w, rt, rs, imm, (wordInForce_of_fetch (.inl hv)).trans hm, hi⟩
    · exact .inl rfl
    · exact .inl rfl
    · exact .inl rfl
  | multi =>
    obtain ⟨_, _, _, rfl⟩ | ⟨_, rfl⟩ | ⟨c, hc, ⟨_, rfl⟩ | ⟨hp, hcls, _, _, rfl⟩ | ⟨_, _, _, rfl⟩ | ⟨_, _, _, _, rfl⟩⟩ :=
      step_multi_next encodeDecode hv h
    · exact .inl rfl
    · exact .inl rfl
    · exact .inl rfl
    · obtain ⟨i, hi, hcls'⟩ := classify_eq_ok.mp hc
      obtain ⟨rt, rs, imm, rfl⟩ := eq_lw_of_classOf (hcls'.trans hcls)
      exact .inr ⟨fun _ => hp, s.ir, rt, rs, imm, wordInForce_of_late hv (by rw [hp]; decide), hi⟩
    · exact .inl rfl
    · exact .inl rfl

/-- Settles O48: in the multi-cycle variant each phase writes its own registers. -/
theorem holdingRegistersFrame : Obligations.HoldingRegistersFrame := by
  intro s t h
  refine ⟨fun hne => (step_mdr h).resolve_left hne, fun hv => ?_⟩
  obtain ⟨w, hp, _, rfl⟩ | ⟨hp, rfl⟩ | ⟨c, _, ⟨hp, rfl⟩ | ⟨_, _, _, _, rfl⟩ | ⟨_, _, _, rfl⟩ | ⟨_, _, _, _, rfl⟩⟩ :=
    step_multi_next encodeDecode hv h
  · simp [hp]
  · simp [hp]
  · simp [hp, executeAfter]
  all_goals simp

/-! ## PC stays aligned (R29) -/

theorem aligned_add_four {pc : Word} (h : pc.toNat % 4 = 0) : (pc + 4).toNat % 4 = 0 := by
  rw [BitVec.toNat_add]
  have hfour : (4 : Word).toNat = 4 := rfl
  omega

theorem aligned_branchTarget {pc : Word} (f : Fields) (h : pc.toNat % 4 = 0) : (branchTarget pc f).toNat % 4 = 0 := by
  rw [branchTarget, BitVec.toNat_add, BitVec.toNat_shiftLeft, Nat.shiftLeft_eq]
  omega

theorem aligned_jumpTarget (pc : Word) (f : Fields) : (jumpTarget pc f).toNat % 4 = 0 := by
  change BitVec.toNat (w := 4 + 26 + 2) (pc.extractLsb' 28 4 ++ f.address ++ 0#2) % 4 = 0
  rw [toNat_concat]
  have hzero : (0#2).toNat = 0 := rfl
  omega

/-- R176: the execute phase keeps the alignment, whatever its class. -/
theorem aligned_executePc (c : InstrClass) (f : Fields) (z : Bool) {pc : Word} (h : pc.toNat % 4 = 0) :
    (executePc c f z pc).toNat % 4 = 0 := by
  cases c with
  | rType op | iType op | load | store | halt => exact h
  | jump link => exact aligned_jumpTarget pc f
  | branch sense =>
    change (if taken sense z then branchTarget pc f else pc).toNat % 4 = 0
    split
    · exact aligned_branchTarget f h
    · exact h

theorem aligned_scBeforeMemory (w : Word) (c : InstrClass) {s : State} (h : s.pc.toNat % 4 = 0) :
    (scBeforeMemory w c s).pc.toNat % 4 = 0 := by
  refine aligned_executePc c (fields w) _ ?_
  change (gated _ (s.pc + 4) s.pc).toNat % 4 = 0
  unfold gated
  split
  · exact aligned_add_four h
  · exact h

/-- Settles O45: every PC a step can leave comes from the fetch or the execute phase. -/
theorem pcStaysAligned : Obligations.PcStaysAligned := by
  intro s t hpc h
  cases hv : s.cfg.variant with
  | single =>
    obtain ⟨w, c, _, _, hrun⟩ := step_single_next encodeDecode hv h
    have halign := aligned_scBeforeMemory w c hpc
    obtain ⟨_, rfl⟩ | ⟨_, rfl⟩ | ⟨_, _, _, rfl⟩ | ⟨_, _, rfl⟩ | ⟨_, rfl⟩ | ⟨_, rfl⟩ := scInstr_next hrun <;> exact halign
  | multi =>
    obtain ⟨_, _, _, rfl⟩ | ⟨_, rfl⟩ | ⟨c, _, ⟨_, rfl⟩ | ⟨_, _, _, _, rfl⟩ | ⟨_, _, _, rfl⟩ | ⟨_, _, _, _, rfl⟩⟩ :=
      step_multi_next encodeDecode hv h
    · exact aligned_add_four hpc
    · exact hpc
    · exact aligned_executePc c (fields s.ir) _ hpc
    all_goals exact hpc

/-! ## The invariant -/

/-- Settles O41: each clause holds by the definition of power-on. -/
theorem powerOnMeetsInv : Obligations.PowerOnMeetsInv :=
  fun _ hc => ⟨hc, rfl, rfl, rfl, fun _ => rfl, fun _ => ⟨rfl, rfl⟩⟩

/-- R50: a step keeps memory canonical and inside its size. -/
theorem step_memory_legal {s t : State} (hwf : Memory.wf s.mem = true) (hin : Memory.within s.cfg.memWords s.mem = true)
    (h : step s = .next t) : Memory.wf t.mem = true ∧ Memory.within s.cfg.memWords t.mem = true := by
  obtain hmem | ⟨_, _, _, _, _, _, ⟨_, hlt, hmem⟩ | ⟨_, _, hlt, hmem⟩⟩ := step_mem h <;> rw [hmem]
  · exact ⟨hwf, hin⟩
  · exact ⟨Memory.wf_write hwf _ _, Memory.within_write hin hlt _⟩
  · exact ⟨Memory.wf_write hwf _ _, Memory.within_write hin hlt _⟩

/-- R22: a step leaves cell 0 of the register file alone. -/
theorem step_zeroCell {s t : State} (h : step s = .next t) : t.x[0] = s.x[0] := by
  obtain hx | ⟨_, _, d, v, _, _, _, _, hx⟩ := step_x h <;> rw [hx]
  exact RegFile.cellZero_write s.x true d v

/-- R151, R161: EXECUTE leads only where the class has a vector. -/
theorem phaseFits_after_execute {t : IsaTable} {ir : Word} {c : InstrClass} (hc : classify t ir = .ok c) :
    phaseFits t ((nextState .execute c).getD .fetch) ir = true := by
  cases c <;> simp [nextState, phaseFits, hc]

/-- R161: a multi-cycle step leaves the FSM in a pair it can be in. -/
theorem step_phaseFits {s t : State} (hv : s.cfg.variant = .multi) (h : step s = .next t) :
    phaseFits s.cfg.isa t.fsm t.ir = true := by
  obtain ⟨_, _, _, rfl⟩ | ⟨_, rfl⟩ | ⟨c, hc, ⟨_, rfl⟩ | ⟨_, rfl, _, _, rfl⟩ | ⟨_, _, _, rfl⟩ | ⟨_, _, _, _, rfl⟩⟩ :=
    step_multi_next encodeDecode hv h
  · rfl
  · rfl
  · exact phaseFits_after_execute hc
  · simp [phaseFits, hc]
  · rfl
  · rfl

/-- R38, R39: a single-cycle step leaves the FSM and the counter alone. -/
theorem step_single_rest {s t : State} (hv : s.cfg.variant = .single) (h : step s = .next t) :
    t.fsm = s.fsm ∧ t.cycles = s.cycles := by
  obtain ⟨w, c, _, _, hrun⟩ := step_single_next encodeDecode hv h
  obtain ⟨_, rfl⟩ | ⟨_, rfl⟩ | ⟨_, _, _, rfl⟩ | ⟨_, _, rfl⟩ | ⟨_, rfl⟩ | ⟨_, rfl⟩ := scInstr_next hrun <;> exact ⟨rfl, rfl⟩

/-- Settles O42: one lemma for each clause of the invariant. -/
theorem stepKeepsInv : Obligations.StepKeepsInv := by
  intro s t hinv h
  have hcfg := step_cfg h
  obtain ⟨hwf, hin⟩ := step_memory_legal hinv.memWf hinv.memWithin h
  exact
    { cfg := hcfg ▸ hinv.cfg
      memWf := hwf
      memWithin := hcfg ▸ hin
      zeroCell := (step_zeroCell h).trans hinv.zeroCell
      phase := fun hv => hcfg ▸ step_phaseFits (hcfg ▸ hv) h
      atRest := fun hv => by
        obtain ⟨hfsm, hcyc⟩ := step_single_rest (hcfg ▸ hv) h
        rw [hfsm, hcyc]
        exact hinv.atRest (hcfg ▸ hv) }

/-- R161: in a pair the FSM can be in there is a vector. -/
theorem mcControl_ne_none {cfg : Config} {t : IsaTable} {p : Phase} {ir : Word} {c : InstrClass}
    (hfits : phaseFits t p ir = true) (hc : classify t ir = .ok c) : mcControl cfg p c ≠ none := by
  cases p with
  | fetch | decode | execute => exact nofun
  | memory => cases c <;> simp_all [phaseFits, mcControl]
  | writeback => cases c <;> simp_all [phaseFits, mcControl]

theorem step_ne_refused {s : State} (hinv : Inv s) (q : Refusal) : step s ≠ .refused q := by
  intro h
  obtain ⟨hv, _, _, c, hc, hnone⟩ := (refusedOnlyWithoutVector s q).mp h
  exact mcControl_ne_none (hinv.phase hv) hc hnone

theorem steps_ne_refused {s : State} (hinv : Inv s) (n : Nat) (q : Refusal) : steps n s ≠ .refused q := by
  induction n generalizing s with
  | zero => exact nofun
  | succ n ih =>
    rw [steps]
    cases h : step s with
    | next t => exact ih (stepKeepsInv s t hinv h)
    | fault f => exact nofun
    | refused r => exact absurd h (step_ne_refused hinv r)

/-- Settles O43: the invariant, by induction along the run. -/
theorem noReachableRefusal : Obligations.NoReachableRefusal :=
  fun s n q hinv h => steps_ne_refused hinv n q ((run_eq_steps n s).symm.trans h)

end Sys2Proof.Proofs
end

section
/-! Reset, the host's operations and the end of a run (70_reset_and_hazards.md R290 to R304): O51 to O57. -/

namespace Sys2Proof.Proofs

open Sys2Proof.Machine Sys2Proof.Laws

/-! ## Reset and the accessors -/

/-- R44: a register file of zeros reads 0 everywhere. -/
theorem read_replicate_zero (r : RegIdx) : RegFile.read (Vector.replicate 32 0) r = 0 := by
  unfold RegFile.read
  split
  · rfl
  · exact Vector.getElem_replicate r.isLt

/-- Settles O51: power-on values everywhere but in memory and the parameters. -/
theorem resetState : Obligations.ResetState :=
  fun _ => ⟨read_replicate_zero, rfl, rfl, rfl, rfl, rfl, rfl, rfl, rfl, rfl, rfl, rfl, rfl⟩

/-- R301: `read_regs` lists in order what the read port shows. -/
theorem readRegs_getElem (s : State) (r : RegIdx) : (readRegs s)[r.toNat]? = some (s.reg r) := by
  rw [readRegs, List.getElem?_map, List.getElem?_range r.isLt, Option.map_some, BitVec.ofNat_toNat, BitVec.setWidth_eq]

/-- Settles O55: the accessors show the read port, and the gate chooses between two values. -/
theorem registerAccessors : Obligations.RegisterAccessors := by
  intro s
  refine ⟨fun r => ⟨readReg_toNat r s, readRegs_getElem s r⟩, readReg_zero s, fun i hi => ?_, ?_, fun _ _ => ⟨rfl, rfl⟩⟩
  · rw [readReg, if_neg (by omega)]
  · rw [readRegs, List.length_map, List.length_range]

/-! ## `load_words` and `dump` (R302, R303) -/

/-- The address of the `k`-th word from `start`. -/
def wordAt (start : Word) (k : Nat) : Word := start + BitVec.ofNat 32 (4 * k)

theorem wordAt_zero (start : Word) : wordAt start 0 = start := BitVec.add_zero start

theorem wordAt_succ (start : Word) (k : Nat) : wordAt (start + 4) k = wordAt start (k + 1) := by
  rw [wordAt, wordAt, Nat.mul_add, Nat.add_comm (4 * k), BitVec.ofNat_add, BitVec.add_assoc]
  rfl

/-- Within 2^30 words no two cells from `start` coincide. -/
theorem cell_wordAt_ne (start : Word) {k : Nat} (h0 : 0 < k) (h : k < 2 ^ 30) :
    (wordAt start k).toNat / 4 ≠ start.toNat / 4 := by
  rw [wordAt, BitVec.toNat_add, BitVec.toNat_ofNat]
  have := start.isLt
  omega

theorem loadWords_cons {start : Word} {v : Int} {rest : List Int} {s u : State} (h : memWrite s start (trunc32 v) = some u) :
    loadWords start (v :: rest) s = loadWords (start + 4) rest u := by
  simp only [loadWords, h]

theorem loadWords_cons_outside {start : Word} {v : Int} {rest : List Int} {s : State}
    (h : memWrite s start (trunc32 v) = none) : loadWords start (v :: rest) s = .fault (.outOfRange (.address start) s) := by
  simp only [loadWords, h, raise]

/-- R302: the first word of a load that succeeded was inside memory. -/
theorem loadWords_cons_next {start : Word} {v : Int} {rest : List Int} {s t : State}
    (h : loadWords start (v :: rest) s = .next t) :
    ∃ u, memWrite s start (trunc32 v) = some u ∧ loadWords (start + 4) rest u = .next t := by
  cases hu : memWrite s start (trunc32 v) with
  | none => rw [loadWords_cons_outside hu] at h; cases h
  | some u => rw [loadWords_cons hu] at h; exact ⟨u, rfl, h⟩

/-- R302: `load_words` touches nothing but memory. -/
theorem loadWords_eq {ws : List Int} {start : Word} {s t : State} (h : loadWords start ws s = .next t) :
    t = { s with mem := t.mem } := by
  induction ws generalizing start s with
  | nil => cases h; rfl
  | cons v rest ih =>
    obtain ⟨u, hu, hrest⟩ := loadWords_cons_next h
    obtain ⟨_, rfl⟩ := memWrite_eq_some.mp hu
    have ht := ih hrest
    exact ht

/-- R302: a cell that holds none of the words reads as before. -/
theorem memRead_loadWords {ws : List Int} {start : Word} {s t : State} (hwf : Memory.wf s.mem = true)
    (h : loadWords start ws s = .next t) {a : Word} (ha : ∀ k < ws.length, (wordAt start k).toNat / 4 ≠ a.toNat / 4) :
    memRead t a = memRead s a := by
  induction ws generalizing start s with
  | nil => cases h; rfl
  | cons v rest ih =>
    obtain ⟨u, hu, hrest⟩ := loadWords_cons_next h
    have hfirst : a.toNat / 4 ≠ start.toNat / 4 := by
      have := ha 0 (Nat.succ_pos _)
      rw [wordAt_zero] at this
      exact this.symm
    rw [ih (memWrite_wf hwf hu) hrest fun k hk => by rw [wordAt_succ]; exact ha (k + 1) (Nat.succ_lt_succ hk),
      memRead_memWrite hwf hu, if_neg hfirst]

/-- R303: what has been loaded is dumped. -/
theorem dump_loadWords {ws : List Int} {start : Word} {s t : State} (hwf : Memory.wf s.mem = true) (hlen : ws.length ≤ 2 ^ 30)
    (h : loadWords start ws s = .next t) : dump start ws.length t = .ok (ws.map trunc32) := by
  induction ws generalizing start s with
  | nil => rfl
  | cons v rest ih =>
    rw [List.length_cons] at hlen ⊢
    obtain ⟨u, hu, hrest⟩ := loadWords_cons_next h
    have hdump := ih (memWrite_wf hwf hu) (by omega) hrest
    have hread : memRead t start = some (trunc32 v) := by
      rw [memRead_loadWords (memWrite_wf hwf hu) hrest fun k hk => by
          rw [wordAt_succ]; exact cell_wordAt_ne start (Nat.succ_pos k) (by omega),
        memRead_memWrite hwf hu, if_pos rfl]
    simp only [dump, hread, hdump, Except.map, List.map_cons]

/-- Settles O52, from the induction along the list of words. -/
theorem loadThenDump : Obligations.LoadThenDump :=
  fun _ _ _ _ hwf hlen h => ⟨dump_loadWords hwf hlen h, loadWords_eq h⟩

/-- R302: loading two lists is loading the one after the other. -/
theorem loadWords_append (before after : List Int) (start : Word) (s : State) :
    loadWords start (before ++ after) s =
      andThen (loadWords start before s) (loadWords (wordAt start before.length) after) := by
  induction before generalizing start s with
  | nil => rw [List.length_nil, wordAt_zero]; rfl
  | cons v rest ih =>
    rw [List.cons_append, List.length_cons, ← wordAt_succ]
    cases hu : memWrite s start (trunc32 v) with
    | none => rw [loadWords_cons_outside hu, loadWords_cons_outside hu, andThen_fault]
    | some u => rw [loadWords_cons hu, loadWords_cons hu, ih]

/-- Settles O53: the words before the bad cell are one load, the rest begins at it. -/
theorem loadWordsStopsAtTheFirstBadCell : Obligations.LoadWordsStopsAtTheFirstBadCell := by
  intro before v after start s t h hle
  have ht := loadWords_eq h
  have hcfg : t.cfg = s.cfg := by rw [ht]
  have hout : memWrite t (wordAt start before.length) (trunc32 v) = none :=
    memWrite_eq_none.mpr (by rw [hcfg, cellIndex_eq]; exact hle)
  refine ⟨?_, ht⟩
  rw [loadWords_append, h, andThen_next, loadWords_cons_outside hout]
  rfl

/-! ## `run(N)` (R300) -/

/-- R300, by induction on the number of steps asked for. -/
theorem runSteps_spec (n : Nat) (s : State) :
    (runSteps n s).1 = steps n s ∧ ((∃ t, (runSteps n s).1 = .next t) ↔ (runSteps n s).2 = n) ∧ (runSteps n s).2 ≤ n ∧
      ∃ u, steps (runSteps n s).2 s = .next u ∧ ((runSteps n s).2 < n → step u = (runSteps n s).1) := by
  induction n generalizing s with
  | zero => exact ⟨rfl, ⟨fun _ => rfl, fun _ => ⟨s, rfl⟩⟩, Nat.le_refl 0, s, rfl, fun h => absurd h (Nat.lt_irrefl 0)⟩
  | succ n ih =>
    cases h : step s with
    | next t =>
      obtain ⟨houtcome, hcount, hle, u, hu, hstop⟩ := ih t
      have hrun : runSteps (n + 1) s = ((runSteps n t).1, (runSteps n t).2 + 1) := by simp only [runSteps, h]
      rw [hrun]
      refine ⟨by rw [steps_succ_of_next h, houtcome], hcount.trans (Nat.add_right_cancel_iff).symm, Nat.succ_le_succ hle, u, ?_,
        fun hlt => hstop (Nat.lt_of_succ_lt_succ hlt)⟩
      rw [steps_succ_of_next h, hu]
    | fault f =>
      have hrun : runSteps (n + 1) s = (.fault f, 0) := by simp only [runSteps, h]
      rw [hrun]
      exact ⟨(steps_succ_of_fault h).symm, ⟨nofun, nofun⟩, Nat.zero_le _, s, rfl, fun _ => h⟩
    | refused q =>
      have hrun : runSteps (n + 1) s = (.refused q, 0) := by simp only [runSteps, h]
      rw [hrun]
      exact ⟨by rw [steps, h, andThen_refused], ⟨nofun, nofun⟩, Nat.zero_le _, s, rfl, fun _ => h⟩

/-- Settles O54, from the induction on the number of steps. -/
theorem runReportsStepsCompleted : Obligations.RunReportsStepsCompleted := by
  intro n s
  obtain ⟨houtcome, hcount, hle, u, hu, hstop⟩ := runSteps_spec n s
  exact ⟨houtcome.trans (run_eq_steps n s).symm, hcount, hle, u, (run_eq_steps _ s).trans hu, hstop⟩

/-! ## The end of a run (R296) -/

/-- R296: IR holds the word of a HALT. -/
theorem irIsHalt_of_encode {s : State} {ignored : BitVec 26} (h : s.ir = encode s.cfg.isa (.halt ignored)) :
    irIsHalt s = true := by
  rw [irIsHalt, h, classify_encode]
  rfl

theorem atHalt_single {s : State} (hv : s.cfg.variant = .single) : atHalt s = irIsHalt s := by
  rw [atHalt, hv]

theorem atHalt_fetch {s : State} (hv : s.cfg.variant = .multi) (hp : s.fsm = .fetch) : atHalt s = irIsHalt s := by
  rw [atHalt, hv, hp]
  rfl

/-- R296: in the multi-cycle variant a run does not end outside FETCH. -/
theorem atHalt_eq_false {s : State} (hv : s.cfg.variant = .multi) (hp : s.fsm ≠ .fetch) : atHalt s = false := by
  simp only [atHalt, hv, beq_eq_false_iff_ne.mpr hp, Bool.false_and]

/-- R248: one single-cycle step on a HALT. -/
theorem step_single_halt {s : State} {ignored : BitVec 26} (hv : s.cfg.variant = .single)
    (hm : memRead s s.pc = some (encode s.cfg.isa (.halt ignored))) :
    step s = .next (afterDefaultAlu (.halt ignored) ignored s.pc s) := by
  rw [step_eq_scInstr hv hm (classify_encode _ _)]
  exact scInstr_haltWord ignored s

theorem steps_of_fixed {s : State} (h : step s = .next s) (n : Nat) : steps n s = .next s := by
  induction n with
  | zero => rfl
  | succ n ih => rw [steps_succ_of_next h, ih]

/-- Settles O56: the state after the HALT is again on the HALT, and one more step writes what is already there. -/
theorem haltIsAFixedPoint : Obligations.HaltIsAFixedPoint := by
  intro s t ignored hv hm h
  rw [step_single_halt hv hm] at h
  cases h
  have hfixed : step (afterDefaultAlu (.halt ignored) ignored s.pc s) =
      .next (afterDefaultAlu (.halt ignored) ignored s.pc s) :=
    step_single_halt (s := afterDefaultAlu (.halt ignored) ignored s.pc s) hv hm
  exact ⟨(atHalt_single (s := afterDefaultAlu (.halt ignored) ignored s.pc s) hv).trans (irIsHalt_of_encode rfl), rfl, rfl, rfl,
    fun n => (run_eq_steps n _).trans (steps_of_fixed hfixed n)⟩

/-- Settles O57: the state after three phases is known; after one and two the FSM is in DECODE and EXECUTE. -/
theorem mcHaltIsSeenInFetch : Obligations.McHaltIsSeenInFetch := by
  intro s t ignored hv hp hm h
  have heq := ((haltEffect s ignored).2 hv hp hm).symm.trans h
  cases heq
  refine ⟨⟨by decide, h, ?_, fun k u h0 h3 hk => ?_⟩, rfl, rfl, rfl⟩
  · exact (atHalt_fetch (s := { afterDefaultAlu (.halt ignored) ignored (s.pc + 4) s with cycles := s.cycles + 3 }) hv hp).trans
      (irIsHalt_of_encode rfl)
  · have hsteps := (run_eq_steps k s).symm.trans hk
    obtain rfl | rfl : k = 1 ∨ k = 2 := by omega
    · rw [steps_one, step_fetch hv hp hm] at hsteps
      cases hsteps
      exact atHalt_eq_false hv (by decide : Phase.decode ≠ .fetch)
    · rw [steps_two hv hp hm] at hsteps
      cases hsteps
      exact atHalt_eq_false hv (by decide : Phase.execute ≠ .fetch)

end Sys2Proof.Proofs
end

section
/-! The numbering tables choose no behaviour (92_eei_decisions.md D1, D5): O60. A step commutes with every change of the
configuration that keeps the variant, the size and ISA_TABLE. -/

namespace Sys2Proof.Proofs

open Sys2Proof.Machine Sys2Proof.Laws

section
variable {g : Config → Config} (hsize : ∀ c, (g c).memWords = c.memWords) (hisa : ∀ c, (g c).isa = c.isa)
  (hvar : ∀ c, (g c).variant = c.variant) (s : State)

include hsize in
/-- A clock phase does the same to the same contents, whatever the numberings. -/
theorem mcInstr_mapCfg (w : Word) (c : InstrClass) :
    mcInstr w c (mapCfg g s) = mapOutcome (mapCfg g) (mcInstr w c s) := by
  have hfsm : (mapCfg g s).fsm = s.fsm := rfl
  cases hp : s.fsm with
  | fetch => rw [mcInstr_fetch (hfsm.trans hp), mcInstr_fetch hp]; rfl
  | decode => rw [mcInstr_decode (hfsm.trans hp), mcInstr_decode hp]; rfl
  | execute =>
    rw [mcInstr_execute (hfsm.trans hp), mcInstr_execute hp]
    rfl
  | memory =>
    by_cases hl : c = .load
    · subst hl
      have hread : memRead (mapCfg g s) (mapCfg g s).aluOut = memRead s s.aluOut := memRead_mapCfg hsize s s.aluOut
      rw [mcInstr_memory_load (hfsm.trans hp), mcInstr_memory_load hp, hread]
      cases memRead s s.aluOut <;> rfl
    · by_cases hs : c = .store
      · subst hs
        have hwrite : memWrite (mapCfg g s) (mapCfg g s).aluOut (mapCfg g s).b = (memWrite s s.aluOut s.b).map (mapCfg g) :=
          memWrite_mapCfg hsize s s.aluOut s.b
        rw [mcInstr_memory_store (hfsm.trans hp), mcInstr_memory_store hp, hwrite]
        cases memWrite s s.aluOut s.b <;> rfl
      · rw [mcInstr_memory_refused (hfsm.trans hp) w hl hs, mcInstr_memory_refused hp w hl hs]
        rfl
  | writeback =>
    have hwb : writebackOf w c (mapCfg g s) = writebackOf w c s := rfl
    rw [mcInstr_writeback (hfsm.trans hp), mcInstr_writeback hp, hwb]
    cases writebackOf w c s <;> rfl

include hsize hvar

theorem wordInForce_mapCfg : wordInForce (mapCfg g s) = wordInForce s := by
  have hread : memRead (mapCfg g s) (mapCfg g s).pc = memRead s s.pc := memRead_mapCfg hsize s s.pc
  have hv : (mapCfg g s).cfg.variant = s.cfg.variant := hvar s.cfg
  unfold wordInForce
  rw [hread, hv]
  rfl

theorem runInstr_mapCfg (w : Word) (c : InstrClass) :
    runInstr w c (mapCfg g s) = mapOutcome (mapCfg g) (runInstr w c s) := by
  have hv : (mapCfg g s).cfg.variant = s.cfg.variant := hvar s.cfg
  cases hs : s.cfg.variant with
  | single => rw [runInstr_single (hv.trans hs), runInstr_single hs, scInstr_mapCfg hsize]
  | multi => rw [runInstr_multi (hv.trans hs), runInstr_multi hs, mcInstr_mapCfg hsize]

omit hsize in
/-- R265: and so does a step on a word that is no instruction. -/
theorem runIllegal_mapCfg (w : Word) : runIllegal w (mapCfg g s) = mapOutcome (mapCfg g) (runIllegal w s) := by
  have hv : (mapCfg g s).cfg.variant = s.cfg.variant := hvar s.cfg
  have hfsm : (mapCfg g s).fsm = s.fsm := rfl
  unfold runIllegal
  rw [hv, hfsm]
  cases s.cfg.variant with
  | single => rfl
  | multi =>
    cases s.fsm with
    | fetch => simp only [mcPhase_fetch, tick_next]; rfl
    | decode =>
      have hdec := fun u : State => mcPhase_decode (ctl := fun _ => sig0 u.cfg) (badSelect_sig0 u.cfg) w u
      simp only [hdec, tick_next]
      rfl
    | execute | memory | writeback => rfl

include hisa

/-- D1, D5: the same step on the same contents. -/
theorem step_mapCfg : step (mapCfg g s) = mapOutcome (mapCfg g) (step s) := by
  have hword := wordInForce_mapCfg hsize hvar s
  have hclass : ∀ w, classify (mapCfg g s).cfg.isa w = classify s.cfg.isa w := fun w => congrArg (classify · w) (hisa s.cfg)
  cases hw : wordInForce s with
  | none => rw [step_of_none (hword.trans hw), step_of_none hw]; rfl
  | some w =>
    cases hc : classify s.cfg.isa w with
    | error e =>
      rw [step_of_illegal (hword.trans hw) ((hclass w).trans hc), step_of_illegal hw hc, runIllegal_mapCfg hvar]
    | ok c =>
      rw [step_eq_runInstr (hword.trans hw) ((hclass w).trans hc), step_eq_runInstr hw hc, runInstr_mapCfg hsize hvar]

end

/-- Another ALU_OP_CODE and SEL_CODE in a configuration. -/
def renumberCfg (ops : AluOpCode) (sel : SelCode) (c : Config) : Config := { c with aluOpCode := ops, selCode := sel }

theorem renumber_eq_mapCfg (ops : AluOpCode) (sel : SelCode) (s : State) :
    renumber ops sel s = mapCfg (renumberCfg ops sel) s := rfl

theorem left_mapLeft (m : State → State) (f : Fault) : (mapLeft m f).left = m f.left := by
  cases f <;> rfl

theorem wireCode_mapLeft (m : State → State) (f : Fault) : (mapLeft m f).wireCode = f.wireCode := by
  cases f <;> rfl

theorem step_renumber (ops : AluOpCode) (sel : SelCode) (s : State) :
    step (renumber ops sel s) = mapOutcome (mapCfg (renumberCfg ops sel)) (step s) := by
  rw [renumber_eq_mapCfg]
  exact step_mapCfg (g := renumberCfg ops sel) (fun _ => rfl) (fun _ => rfl) (fun _ => rfl) s

/-- Settles O60: one clause for each outcome of the step. -/
theorem numberingDoesNotMatter : Obligations.NumberingDoesNotMatter := by
  intro s ops sel
  have hstep := step_renumber ops sel s
  refine ⟨fun t h => ?_, fun f h => ?_, fun q h => ?_⟩
  · rw [hstep, h]; rfl
  · rw [hstep, h]
    exact ⟨_, rfl, left_mapLeft _ f, wireCode_mapLeft _ f⟩
  · rw [hstep, h]; rfl

end Sys2Proof.Proofs
end
